-- ==== Sys2Proof/Word.lean ====
section
/-! DEFINITION. The words of the machine: the `W`-bit word, the trace byte and the small fields of a byte.
Rules R6 and R7 of 00_scope.md; the width `W = 64` is decision D1 (assumption 1). -/

namespace Sys2Proof

/-- A `W`-bit register or packed field, `W = 64` (rules R6 and R35, decision D1). `+` and `^^^` on it are the
`W`-bit operators of rule R9. -/
abbrev Word := BitVec 64

/-- One byte of the trace stream (rule R70). -/
abbrev Byte := BitVec 8

/-- An MSEO tag value, the 2 low bits of a trace byte (rules R70 and R71). -/
abbrev Tag := BitVec 2

/-- A packet type code, the 6-bit `MDO` of a packet's first byte (rule R73). -/
abbrev Tcode := BitVec 6

/-- A string of the Instruction Index (a mnemonic or an operand text), as the list of its characters, so that
equality is the exact comparison of rule R9. -/
abbrev Text := List Char

end Sys2Proof
end

