-- ==== Sys2Proof/Config.lean ====
section
/-! DEFINITION. The configuration record `CFG` (rule R6): the parameters that are fixed before reset and constant
during a run, their defaults and the constraints a model enforces. The spec leaves no value free, so there is no
opaque constant here; the OPEN parameter `SYNC_MARKER` is a field that every claim quantifies over (assumption 2). -/

namespace Sys2Proof

/-- `CFG.FIELD_OVERFLOW`: what happens when a packed field has a 1 bit at position `W` or above (rules R6, R83). -/
inductive OverflowPolicy where
  | fault
  | truncate
deriving DecidableEq, Repr

/-- `CFG.UNHANDLED_POLICY`: how many bytes a recognized-but-unhandled packet consumes (rules R6, R81). -/
inductive UnhandledPolicy where
  | skipToEom
  | tcodeOnly
deriving DecidableEq, Repr

/-- The configuration record `CFG` of rule R6. `W` is not a field: it is 64 (decision D1, assumption 1). The names
of the `TC_OTHER` members are no data: only membership is ever tested (rules R76, R120). -/
structure Cfg where
  fieldOverflow   : OverflowPolicy
  tagEof          : Tag
  tagEom          : Tag
  tcSync          : Tcode
  tcDbr           : Tcode
  tcIbr           : Tcode
  tcCorr          : Tcode
  tcOther         : List Tcode
  syncMarker      : BitVec 4
  unhandledPolicy : UnhandledPolicy
  jumpMnemonics   : List Text
deriving DecidableEq, Repr

/-- The values of rule R6's table. `syncMarker` is OPEN there; 5 is the value the spec's test vectors use
(DESIGN CHOICE, assumption 2). -/
def Cfg.default : Cfg where
  fieldOverflow   := .fault
  tagEof          := 0b01
  tagEom          := 0b11
  tcSync          := 9
  tcDbr           := 3
  tcIbr           := 4
  tcCorr          := 33
  tcOther         := [2, 8, 11, 12, 27, 28, 29]
  syncMarker      := 0x5
  unhandledPolicy := .skipToEom
  jumpMnemonics   := [['j'], ['j', 'a', 'l'], ['c', '.', 'j'], ['c', '.', 'j', 'a', 'l']]

/-- Every Tcode the configuration gives a kind to, the four handled ones first. -/
def Cfg.tcodes (c : Cfg) : List Tcode := [c.tcSync, c.tcDbr, c.tcIbr, c.tcCorr] ++ c.tcOther

/-- The constraints of rule R6 that are not already in the fields' types: the two terminators differ, and the handled
Tcodes and the members of `TC_OTHER` are pairwise distinct. (`W >= 8` holds of 64; widths are the types'.) -/
def Cfg.wf (c : Cfg) : Bool := c.tagEof != c.tagEom && decide c.tcodes.Nodup

end Sys2Proof
end

