-- ==== Sys2Proof/Syntax.lean ====
section
/-! DEFINITION. The syntax: one constructor of `Instr` per row of spec/opcode_table.json. An "instruction" of this
hardware is a packet of the trace stream (rule R12), with the fields its layout gives it (rules R77 to R81). -/

namespace Sys2Proof

/-- `branch_type` of an IndirectBranchCount packet, in the code order of rule R84. -/
inductive BranchType where
  | indirect
  | trap
  | exception
  | interrupt
deriving DecidableEq, Repr

/-- One packet of the trace stream, by its row of the opcode table (rules R74 and R75). Field widths are those of
rule R27; every field holds the value as decoded (`fullAddress` and `differentialAddress` still halfword-scaled). -/
inductive Instr where
  /-- Synchronization (rules R77, R121). -/
  | sync (marker : BitVec 4) (fullAddress timestamp : Word)
  /-- DirectBranchCount (rules R78, R122). -/
  | dbr (instructionCount timestamp : Word)
  /-- IndirectBranchCount (rules R79, R123). -/
  | ibr (branchType : BranchType) (instructionCount differentialAddress timestamp : Word)
  /-- TraceCorrelation (rules R80, R124). -/
  | corr (evcode : BitVec 2) (instructionCount timestamp : Word)
  /-- OTHER(2), Ownership: recognized but unhandled (rules R75, R81, R125), as are all below. -/
  | other2
  /-- OTHER(8), Error. -/
  | other8
  /-- OTHER(11), DirectBranchSync. -/
  | other11
  /-- OTHER(12), IndirectBranchSync. -/
  | other12
  /-- OTHER(27), ResourceFull. -/
  | other27
  /-- OTHER(28), IndirectBranchHist. -/
  | other28
  /-- OTHER(29), IndirectBranchHistSync. -/
  | other29
deriving DecidableEq, Repr

/-- The `kind` field of a Packet (rule R27). `other t` has any 6-bit Tcode, since `TC_OTHER` is a parameter. -/
inductive Kind where
  | none
  | sync
  | dbr
  | ibr
  | corr
  | other (t : Tcode)
deriving DecidableEq, Repr

/-- A Packet (rule R27): what the Packet register holds and what a `Decoded` event carries. -/
structure Packet where
  kind                : Kind
  syncMarker          : BitVec 4
  branchType          : BranchType
  evcode              : BitVec 2
  instructionCount    : Word
  fullAddress         : Word
  differentialAddress : Word
  timestamp           : Word
deriving DecidableEq, Repr

/-- The empty Packet (rule R27): kind `NONE`, `branch_type` `INDIRECT`, every other field 0. -/
def Packet.empty : Packet where
  kind                := .none
  syncMarker          := 0
  branchType          := .indirect
  evcode              := 0
  instructionCount    := 0
  fullAddress         := 0
  differentialAddress := 0
  timestamp           := 0

end Sys2Proof
end

