-- ==== Sys2Proof/WellFormed.lean ====
section
/-! DEFINITION. When a packet can stand in a trace under a configuration: the checks that the fields' widths do not
make already. -/

namespace Sys2Proof

/-- A packet is well formed under a configuration when the decoder can give it: a Synchronization packet carries the
expected marker (rules R77, R202) and a recognized-but-unhandled Tcode is a member of `TC_OTHER` (rules R76, R81).
Every `branch_type`, every `evcode` and every `W`-bit field value is legal (rules R83 to R85). -/
def Instr.wf (c : Cfg) : Instr → Bool
  | .sync marker _ _ => marker == c.syncMarker
  | .dbr _ _         => true
  | .ibr _ _ _ _     => true
  | .corr _ _ _      => true
  | .other2          => c.tcOther.contains 2
  | .other8          => c.tcOther.contains 8
  | .other11         => c.tcOther.contains 11
  | .other12         => c.tcOther.contains 12
  | .other27         => c.tcOther.contains 27
  | .other28         => c.tcOther.contains 28
  | .other29         => c.tcOther.contains 29

end Sys2Proof
end

