-- ==== Sys2Proof/Decode.lean ====
section
/-! DEFINITION. The Bitfield Reader (40_bitfield_reader.md), the Packet Decoder (41_packet_decoder.md) and, after them,
the canonical encoder `Enc` of rule R92. Decoding is total on any bytes and rejects by name: the four errors of
`DecodeError`, each with the information rule R200 records. -/

namespace Sys2Proof

/-! ### Bytes, tags and bit fields -/

/-- `MDO(b) = b[7:2]` (rules R7 and R70). -/
def mdo (b : Byte) : BitVec 6 := b.extractLsb' 2 6

/-- `MSEO(b) = b[1:0]` (rules R7 and R70). -/
def mseo (b : Byte) : Tag := b.extractLsb' 0 2

/-- The flag bits `b[7:6]` of a run's byte 0 (rules R77, R79, R80). -/
def bits76 (b : Byte) : BitVec 2 := b.extractLsb' 6 2

/-- The low payload bits `b[5:2]` of a run's byte 0 (rules R77, R79, R80). -/
def bits52 (b : Byte) : BitVec 4 := b.extractLsb' 2 4

/-- A trace byte from its payload and its tag: `(MDO << 2) | MSEO` (rule R70). -/
def traceByte (payload : BitVec 6) (tag : Tag) : Byte := payload ++ tag

/-- The `branch_type` codes of rule R84. -/
def branchTypeOfCode (code : BitVec 2) : BranchType :=
  if code = 0b00 then .indirect
  else if code = 0b01 then .trap
  else if code = 0b10 then .exception
  else .interrupt

/-- The code of a `branch_type` (rule R84, read the other way). -/
def BranchType.code : BranchType → BitVec 2
  | .indirect  => 0b00
  | .trap      => 0b01
  | .exception => 0b10
  | .interrupt => 0b11

/-! ### Reading the stream -/

/-- The errors a decode can raise, with the information rule R200 records for each. -/
inductive DecodeError where
  /-- Code 1 (rule R201): a byte is needed at `pos = L`; `at_` is that `pos`. -/
  | unexpectedEof (at_ : Nat)
  /-- Code 2 (rule R202): the 4-bit marker found. -/
  | syncMarkerMismatch (marker : BitVec 4)
  /-- Code 3 (rules R126, R203): the 6-bit Tcode found. -/
  | invalidTcode (tcode : Tcode)
  /-- Code 10 (rule R210): `at_` is `pos` just past the run. -/
  | fieldOverflow (at_ : Nat)
deriving DecidableEq, Repr

/-- The stream seen from the read pointer: the offset `pos` of the next byte and the bytes from there to the end
(rules R22 and R50). -/
structure Reader where
  pos  : Nat
  rest : List Byte
deriving DecidableEq, Repr

/-- What a reading operation gives: a value or an error, and in both cases the reader after it, since the bytes
consumed before a failure stay consumed (rules R52 and R128). -/
inductive Read (α : Type) where
  | ok (a : α) (r : Reader)
  | err (e : DecodeError) (r : Reader)
deriving DecidableEq, Repr

/-- Run one reading operation after another; the first error ends the sequence (rule R10). -/
def Read.andThen {α β : Type} (x : Read α) (f : α → Reader → Read β) : Read β :=
  match x with
  | .ok a r  => f a r
  | .err e r => .err e r

/-- `ReadByte` (rule R100). -/
def readByte (r : Reader) : Read Byte :=
  match r.rest with
  | []      => .err (.unexpectedEof r.pos) r
  | b :: bs => .ok b ⟨r.pos + 1, bs⟩

/-- The loop of rule R101 over the bytes from offset `pos` on. -/
def readRunFrom (tag : Tag) (pos : Nat) : List Byte → Read (List Byte)
  | []      => .err (.unexpectedEof pos) ⟨pos, []⟩
  | b :: bs =>
    if mseo b = tag then .ok [b] ⟨pos + 1, bs⟩
    else
      match readRunFrom tag (pos + 1) bs with
      | .ok run r => .ok (b :: run) r
      | .err e r  => .err e r

/-- `ReadFieldUntil(tag)` (rule R101): the run up to and with the first byte whose `MSEO` is `tag`. -/
def readFieldUntil (tag : Tag) (r : Reader) : Read (List Byte) := readRunFrom tag r.pos r.rest

/-- The contributions of a run's bytes when the first of them stands at bit offset `off` and each next one 6 bits
higher (rules R57 and R82): little-endian by groups. -/
def groupSum (off : Nat) : List Byte → Nat
  | []      => 0
  | b :: bs => (mdo b).toNat * 2 ^ off + groupSum (off + 6) bs

/-- `PackK(v0, k, run)` (rules R83 and R102): byte 0 gives the `k`-bit `v0`, byte `i >= 1` its group at offset
`k + 6(i-1)`. `r` is the reader just past the run. -/
def packK (c : Cfg) (v0 k : Nat) (run : List Byte) (r : Reader) : Read Word :=
  let acc := v0 + groupSum k run.tail
  if 2 ^ 64 ≤ acc then
    match c.fieldOverflow with
    | .fault    => .err (.fieldOverflow r.pos) r
    | .truncate => .ok (BitVec.ofNat 64 acc) r
  else .ok (BitVec.ofNat 64 acc) r

/-- Byte 0 of a run; a run has at least one byte (rule R101). -/
def firstByte (run : List Byte) : Byte := run.headD 0

/-- `Pack6(run)` (rule R103). -/
def pack6 (c : Cfg) (run : List Byte) (r : Reader) : Read Word :=
  packK c (mdo (firstByte run)).toNat 6 run r

/-! ### The Packet Decoder -/

/-- What the decoder gives for one packet: a row of the opcode table, or a recognized-but-unhandled packet whose
Tcode a configuration put in `TC_OTHER` although the table (the default set) has no row for it (rules R6, R81). -/
inductive Item where
  | row (i : Instr)
  | unlisted (t : Tcode)
deriving DecidableEq, Repr

/-- `DecodeSync` (rules R77, R121): the marker is checked after run A has been read and before `full_address` is
assembled and run B read (rule R212). -/
def decodeSync (c : Cfg) (r : Reader) : Read Item :=
  (readFieldUntil c.tagEof r).andThen fun a r =>
    let marker := bits52 (firstByte a)
    if marker ≠ c.syncMarker then .err (.syncMarkerMismatch marker) r
    else
      (packK c (bits76 (firstByte a)).toNat 2 a r).andThen fun fullAddress r =>
      (readFieldUntil c.tagEom r).andThen fun b r =>
      (pack6 c b r).andThen fun timestamp r =>
        .ok (.row (.sync marker fullAddress timestamp)) r

/-- `DecodeDBR` (rules R78, R122). -/
def decodeDbr (c : Cfg) (r : Reader) : Read Item :=
  (readFieldUntil c.tagEof r).andThen fun a r =>
  (pack6 c a r).andThen fun instructionCount r =>
  (readFieldUntil c.tagEom r).andThen fun b r =>
  (pack6 c b r).andThen fun timestamp r =>
    .ok (.row (.dbr instructionCount timestamp)) r

/-- `DecodeIBR` (rules R79, R123). -/
def decodeIbr (c : Cfg) (r : Reader) : Read Item :=
  (readFieldUntil c.tagEof r).andThen fun a r =>
  (packK c (bits52 (firstByte a)).toNat 4 a r).andThen fun instructionCount r =>
  (readFieldUntil c.tagEof r).andThen fun b r =>
  (pack6 c b r).andThen fun differentialAddress r =>
  (readFieldUntil c.tagEom r).andThen fun d r =>
  (pack6 c d r).andThen fun timestamp r =>
    .ok (.row (.ibr (branchTypeOfCode (bits76 (firstByte a))) instructionCount differentialAddress timestamp)) r

/-- `DecodeCORR` (rules R80, R124). -/
def decodeCorr (c : Cfg) (r : Reader) : Read Item :=
  (readFieldUntil c.tagEof r).andThen fun a r =>
  (packK c (bits52 (firstByte a)).toNat 4 a r).andThen fun instructionCount r =>
  (readFieldUntil c.tagEom r).andThen fun b r =>
  (pack6 c b r).andThen fun timestamp r =>
    .ok (.row (.corr (bits76 (firstByte a)) instructionCount timestamp)) r

/-- The item of a Tcode of `TC_OTHER`: its row of the opcode table (rule R75), if it has one. -/
def otherItem (t : Tcode) : Item :=
  if t = 2 then .row .other2
  else if t = 8 then .row .other8
  else if t = 11 then .row .other11
  else if t = 12 then .row .other12
  else if t = 27 then .row .other27
  else if t = 28 then .row .other28
  else if t = 29 then .row .other29
  else .unlisted t

/-- `DecodeOther` (rules R81, R125), `t` the Tcode byte, already consumed. -/
def decodeOther (c : Cfg) (t : Byte) (r : Reader) : Read Item :=
  if c.unhandledPolicy = .skipToEom ∧ mseo t ≠ c.tagEom then
    (readFieldUntil c.tagEom r).andThen fun _ r => .ok (otherItem (mdo t)) r
  else .ok (otherItem (mdo t)) r

/-- `DecodePacket` up to the write of `pkt` (rules R73, R76, R120, R126). -/
def decodePacket (c : Cfg) (r : Reader) : Read Item :=
  (readByte r).andThen fun t r =>
    let tc := mdo t
    if tc = c.tcSync then decodeSync c r
    else if tc = c.tcDbr then decodeDbr c r
    else if tc = c.tcIbr then decodeIbr c r
    else if tc = c.tcCorr then decodeCorr c r
    else if tc ∈ c.tcOther then decodeOther c t r
    else .err (.invalidTcode tc) r

/-- The Packet of a recognized-but-unhandled kind: every field but `kind` stays empty (rule R125). -/
def otherPacket (t : Tcode) : Packet := { Packet.empty with kind := .other t }

/-- The Packet an instruction stands for: the fields its kind gives meaning to, the others empty (rule R27). -/
def Instr.packet : Instr → Packet
  | .sync marker fullAddress timestamp =>
    { Packet.empty with kind := .sync, syncMarker := marker, fullAddress := fullAddress, timestamp := timestamp }
  | .dbr instructionCount timestamp =>
    { Packet.empty with kind := .dbr, instructionCount := instructionCount, timestamp := timestamp }
  | .ibr branchType instructionCount differentialAddress timestamp =>
    { Packet.empty with
        kind := .ibr, branchType := branchType, instructionCount := instructionCount,
        differentialAddress := differentialAddress, timestamp := timestamp }
  | .corr evcode instructionCount timestamp =>
    { Packet.empty with
        kind := .corr, evcode := evcode, instructionCount := instructionCount, timestamp := timestamp }
  | .other2  => otherPacket 2
  | .other8  => otherPacket 8
  | .other11 => otherPacket 11
  | .other12 => otherPacket 12
  | .other27 => otherPacket 27
  | .other28 => otherPacket 28
  | .other29 => otherPacket 29

/-- The Packet of what the decoder gave. -/
def Item.packet : Item → Packet
  | .row i      => i.packet
  | .unlisted t => otherPacket t

/-! ### The canonical encoder `Enc` (rule R92) -/

/-- A tag that does not end a run read until `tag`: `0b00`, as rule R92 writes it, unless `0b00` is the terminator
itself, in which case `0b10` (DESIGN CHOICE, assumption 5). -/
def continuationTag (tag : Tag) : Tag := if tag = 0b00 then 0b10 else 0b00

/-- The 6-bit groups of `v`, lowest first, up to the highest nonzero one and at most `fuel` of them. -/
def groupsOf : (fuel : Nat) → (v : Nat) → List (BitVec 6)
  | 0, _        => []
  | fuel + 1, v => if v = 0 then [] else BitVec.ofNat 6 v :: groupsOf fuel (v / 64)

/-- A run of the given payloads: the terminator on the last byte, the continuation tag on every other. -/
def tagRun (tag : Tag) : List (BitVec 6) → List Byte
  | []           => []
  | [p]          => [traceByte p tag]
  | p :: q :: ps => traceByte p (continuationTag tag) :: tagRun tag (q :: ps)

/-- The canonical run of a field whose byte 0 has the payload `p0` and carries the `k` low bits of `v`: the higher
bits follow in as few groups as carry them. Eleven groups hold any `W`-bit value above `k >= 2` bits. -/
def encodeRun (tag : Tag) (p0 : BitVec 6) (k : Nat) (v : Word) : List Byte :=
  tagRun tag (p0 :: groupsOf 11 (v.toNat / 2 ^ k))

/-- The canonical run of a field whose byte 0 is a full group. -/
def encodeRun6 (tag : Tag) (v : Word) : List Byte := encodeRun tag (v.setWidth 6) 6 v

/-- The Tcode byte, with `MSEO` `0b00` (rule R92). -/
def tcodeByte (tcode : Tcode) : Byte := traceByte tcode 0b00

/-- A recognized-but-unhandled packet with no payload (rule R81). Under `SKIP_TO_EOM` its Tcode byte carries a
continuation tag and one byte of payload 0 ends it. -/
def encodeOther (c : Cfg) (t : Tcode) : List Byte :=
  match c.unhandledPolicy with
  | .skipToEom => [traceByte t (continuationTag c.tagEom), traceByte 0 c.tagEom]
  | .tcodeOnly => [tcodeByte t]

/-- `Enc` (rule R92) of a packet. -/
def encode (c : Cfg) : Instr → List Byte
  | .sync marker fullAddress timestamp =>
    tcodeByte c.tcSync ::
      (encodeRun c.tagEof (fullAddress.setWidth 2 ++ marker) 2 fullAddress ++ encodeRun6 c.tagEom timestamp)
  | .dbr instructionCount timestamp =>
    tcodeByte c.tcDbr :: (encodeRun6 c.tagEof instructionCount ++ encodeRun6 c.tagEom timestamp)
  | .ibr branchType instructionCount differentialAddress timestamp =>
    tcodeByte c.tcIbr ::
      (encodeRun c.tagEof (branchType.code ++ instructionCount.setWidth 4) 4 instructionCount ++
        (encodeRun6 c.tagEof differentialAddress ++ encodeRun6 c.tagEom timestamp))
  | .corr evcode instructionCount timestamp =>
    tcodeByte c.tcCorr ::
      (encodeRun c.tagEof (evcode ++ instructionCount.setWidth 4) 4 instructionCount ++
        encodeRun6 c.tagEom timestamp)
  | .other2  => encodeOther c 2
  | .other8  => encodeOther c 8
  | .other11 => encodeOther c 11
  | .other12 => encodeOther c 12
  | .other27 => encodeOther c 27
  | .other28 => encodeOther c 28
  | .other29 => encodeOther c 29

/-! ### Words as the opcode table numbers them -/

/-- The bytes of a word of `n` bytes, the first one in its low bits. -/
def bytesOfWord : (n : Nat) → (w : Nat) → List Byte
  | 0, _     => []
  | n + 1, w => BitVec.ofNat 8 w :: bytesOfWord n (w / 256)

/-- The terminators of the runs that follow the Tcode byte `t`, in order (rules R77 to R81). -/
def runTerminators (c : Cfg) (t : Byte) : List Tag :=
  if mdo t = c.tcSync ∨ mdo t = c.tcDbr ∨ mdo t = c.tcCorr then [c.tagEof, c.tagEom]
  else if mdo t = c.tcIbr then [c.tagEof, c.tagEof, c.tagEom]
  else if mdo t ∈ c.tcOther ∧ c.unhandledPolicy = .skipToEom ∧ mseo t ≠ c.tagEom then [c.tagEom]
  else []

/-- The bytes that end the runs `bs` leaves unfinished: one byte for each, of payload 0 and carrying the run's
terminator; `p0` is the payload of byte 0 of the first run, should `bs` not hold it. -/
def missingBytes (p0 : BitVec 6) : List Tag → List Byte → List Byte
  | [], _            => []
  | tag :: tags, bs =>
    match readRunFrom tag 0 bs with
    | .ok _ r  => missingBytes 0 tags r.rest
    | .err _ _ => traceByte (if bs = [] then p0 else 0) tag :: missingBytes 0 tags []

/-- The bytes of a table word made a whole packet: every operand field it leaves out is 0, each run written as one
byte with its terminator, and `sync_marker` is the expected constant (DESIGN CHOICE, assumption 6). -/
def wholePacket (c : Cfg) : List Byte → List Byte
  | []     => []
  | t :: bs =>
    t :: bs ++ missingBytes (if mdo t = c.tcSync then (0 : BitVec 2) ++ c.syncMarker else 0) (runTerminators c t) bs

/-- The instruction the decoder reads from a word of `nbits` bits, bit 0 the least significant bit of the first byte
(assumption 6), under the default configuration. -/
def decodeTableWord (nbits w : Nat) : Option Instr :=
  match decodePacket Cfg.default ⟨0, wholePacket Cfg.default (bytesOfWord ((nbits + 7) / 8) w)⟩ with
  | .ok (.row i) _ => some i
  | _              => none

end Sys2Proof
end

