-- ==== Sys2Proof/Machine/State.lean ====
section
/-! DEFINITION. The state of the decoder core (10_state.md, rules R20 to R32), the three step parameters of rule R33 it
runs against, the state after reset (rule R230) and the reasons a step can stop. -/

namespace Sys2Proof.Machine

/-- `phase` (rule R20). -/
inductive Phase where
  | init
  | running
  | terminal
  | failed
deriving DecidableEq, Repr

/-- `ctl` (rule R21). -/
inductive Ctl where
  | idle
  | walkDirect
  | walkIndirect
  | walkCorr
deriving DecidableEq, Repr

/-- `end_reason` (rule R30). -/
inductive EndReason where
  | none
  | correlation
  | endOfStream
deriving DecidableEq, Repr

/-- An entry of the Instruction Index (rule R53): mnemonic, operand text, byte length. -/
structure Entry where
  mnem : Text
  ops  : Text
  len  : Nat
deriving DecidableEq, Repr

/-- The Instruction Index (rules R50 and R53), the one addressed space with contents: entries by address, in the
canonical form of `Index.wf`. An address that is not listed is a `MISS`. -/
abbrev Index := List (Nat × Entry)

/-- The canonical form of an Index: addresses strictly rising, each a `W`-bit address. No entry equals a `MISS`. -/
def Index.wf (x : Index) : Bool :=
  decide (x.Pairwise fun a b => a.1 < b.1) && x.all fun a => decide (a.1 < 2 ^ 64)

/-- An emitted record (rules R32 and R55). -/
structure Record where
  address : Word
  entry   : Entry
deriving DecidableEq, Repr

/-- An element of the event output (rules R32 and R55). -/
inductive Event where
  | decoded (p : Packet)
  | ignored (k : Kind)
deriving DecidableEq, Repr

/-- The ten causes of rule R200 as names. -/
inductive Cause where
  | unexpectedEof
  | syncMarkerMismatch
  | invalidTcode
  | missingInstruction
  | unsupportedBranchOperand
  | expectedSync
  | parcelUnderflow
  | emptyDirectBranch
  | badInstructionLength
  | fieldOverflow
deriving DecidableEq, Repr

/-- A fatal error with the information rule R200 records for its cause. The four errors a decode can raise are under
`decode`, since rule R211 attributes those to the packet being decoded and all others to the packet being replayed. -/
inductive Err where
  | decode (e : DecodeError)
  | missingInstruction (addr : Word)
  | unsupportedBranchOperand (addr : Word) (ops : Text)
  | expectedSync (kind : Kind)
  | parcelUnderflow (addr : Word) (parcels : Nat) (remaining : Word)
  | emptyDirectBranch
  | badInstructionLength (addr : Word) (len : Nat)
deriving DecidableEq, Repr

/-- The error record (rules R31 and R211). Its `cause`, `code` and `info` are all read off `err`
(`FailRecord.cause`, `FailRecord.code`). -/
structure FailRecord where
  err         : Err
  packetIndex : BitVec 64
  offset      : Nat
deriving DecidableEq, Repr

/-- The state of the machine. -/
structure State where
  /-- Rule R20. -/
  phase               : Phase
  /-- Rule R21. -/
  ctl                 : Ctl
  /-- Rule R22: the number of trace bytes consumed, an unbounded natural. -/
  pos                 : Nat
  /-- Rule R23: the offset of the current packet's Tcode byte. -/
  pktStart            : Nat
  /-- Rule R24. -/
  packetsProcessed    : BitVec 64
  /-- Rule R25, the program counter (rule R35). -/
  currentPc           : Word
  /-- Rule R26. -/
  lastAbsoluteAddress : Word
  /-- Rule R27, the Packet register. -/
  pkt                 : Packet
  /-- Rule R28: the parcels the current walk has left. -/
  remaining           : Word
  /-- Rule R29. -/
  lastVisited         : Word
  /-- Rule R29; `none` is the spec's `NONE`. -/
  lastEntry           : Option Entry
  /-- Rule R30. -/
  endReason           : EndReason
  /-- Rule R31; `none` is the spec's `NONE`. -/
  fail                : Option FailRecord
  /-- Rule R32, in emission order. -/
  records             : List Record
  /-- Rule R32, in the order appended. -/
  events              : List Event
  /-- The trace byte sequence `T` (rules R33 and R51), a parameter of the step; `L` is its length (assumption 3). -/
  trace               : List Byte
  /-- The Instruction Index (rules R33 and R54), a parameter of the step (assumption 3). -/
  index               : Index
  /-- The configuration record (rules R6 and R33), a parameter of the step (assumption 3). -/
  cfg                 : Cfg
deriving DecidableEq, Repr

/-- The host's launch (rules R231 and R240): the trace, the Index and the configuration are in place and the core is
reset, which puts every register at the value rule R230 gives. -/
def State.launch (cfg : Cfg) (index : Index) (trace : List Byte) : State where
  phase               := .init
  ctl                 := .idle
  pos                 := 0
  pktStart            := 0
  packetsProcessed    := 0
  currentPc           := 0
  lastAbsoluteAddress := 0
  pkt                 := Packet.empty
  remaining           := 0
  lastVisited         := 0
  lastEntry           := none
  endReason           := .none
  fail                := none
  records             := []
  events              := []
  trace               := trace
  index               := index
  cfg                 := cfg

/-- The machine right after reset (rule R230). The host has supplied nothing yet: the trace and the Index are empty
and the configuration is the default (assumption 3). -/
def State.reset : State := State.launch Cfg.default [] []

/-- Why the machine stands still. Each of these is safe: the machine takes no step where the spec gives none. An error
of rule R200 is no `Fault`: it is taken as a next state with `phase` `FAILED` (rule R211). -/
inductive Fault where
  /-- Raised by `step`, and by a packet's meaning, when `phase` is `TERMINAL`: no step is enabled (rules R150, R163).
  Safe. -/
  | runEnded
  /-- Raised by `step`, and by a packet's meaning, when `phase` is `FAILED`: no step is enabled (rules R150, R213).
  Safe. -/
  | runFailed
  /-- Raised by a packet's meaning when a walk is in progress: the next packet is handled only after the replay of the
  current one has finished (rule R61). `step` never calls a meaning there. Safe. -/
  | walkInProgress
  /-- Raised by `ResolveDirect` when `last_entry` is `NONE`, which rule R156 says never happens; no state that a run
  reaches raises it. Safe. -/
  | noLastEntry
deriving DecidableEq, Repr

/-- Why the model gives a step no meaning. -/
inductive Refusal where
  /-- Raised by an arm of `exec` whose instruction has no meaning yet; no arm of this model does. Safe. -/
  | notModelled (mnemonic : String)
  /-- Raised by `step` under a configuration that violates a constraint of rule R6, which the spec says is refused.
  Safe. -/
  | badConfig
deriving DecidableEq, Repr

end Sys2Proof.Machine
end

