-- ==== Sys2Proof/Machine/Flags.lean ====
section
/-! DEFINITION. The status the block exposes (rules R36 and R165) and the codes of rule R200. The block has no condition
codes, and no operation sets a flag as a side effect (rule R36). -/

namespace Sys2Proof.Machine

/-- The cause of a decode error (rule R200). -/
def decodeCause : DecodeError → Cause
  | .unexpectedEof _      => .unexpectedEof
  | .syncMarkerMismatch _ => .syncMarkerMismatch
  | .invalidTcode _       => .invalidTcode
  | .fieldOverflow _      => .fieldOverflow

/-- The cause of an error (rule R200). -/
def errCause : Err → Cause
  | .decode e                     => decodeCause e
  | .missingInstruction _         => .missingInstruction
  | .unsupportedBranchOperand _ _ => .unsupportedBranchOperand
  | .expectedSync _               => .expectedSync
  | .parcelUnderflow _ _ _        => .parcelUnderflow
  | .emptyDirectBranch            => .emptyDirectBranch
  | .badInstructionLength _ _     => .badInstructionLength

/-- `Code(E)` (rule R200, decision D26). -/
def causeCode : Cause → Nat
  | .unexpectedEof            => 1
  | .syncMarkerMismatch       => 2
  | .invalidTcode             => 3
  | .missingInstruction       => 4
  | .unsupportedBranchOperand => 5
  | .expectedSync             => 6
  | .parcelUnderflow          => 7
  | .emptyDirectBranch        => 8
  | .badInstructionLength     => 9
  | .fieldOverflow            => 10

/-- The `cause` field of an error record (rule R211). -/
def FailRecord.cause (f : FailRecord) : Cause := errCause f.err

/-- The `code` field of an error record (rule R211). -/
def FailRecord.code (f : FailRecord) : Nat := causeCode f.cause

/-- The status output of a final state (rule R165). -/
inductive Status where
  | done (packetsProcessed : BitVec 64) (endReason : EndReason) (currentPc lastAbsoluteAddress : Word)
  | failed (fail : FailRecord)
deriving DecidableEq, Repr

/-- What the core reports (rule R165): nothing until the run is over (rule R239). -/
def status (s : State) : Option Status :=
  match s.phase with
  | .terminal => some (.done s.packetsProcessed s.endReason s.currentPc s.lastAbsoluteAddress)
  | .failed   => s.fail.map .failed
  | .init     => none
  | .running  => none

end Sys2Proof.Machine
end

