-- ==== Sys2Proof/Machine/Operands.lean ====
section
/-! DEFINITION. Operand forms: the address transform of rules R86 and R87, parcels (rule R153) and the grammar of the
Index's operand text (rules R90 and R91). -/

namespace Sys2Proof.Machine

/-- `unscale(v) = (v << 1) mod 2^W` (rule R86). -/
def unscale (v : Word) : Word := v <<< 1

/-- The target of an indirect resolution (rule R87): the differential address, still scaled, is XORed with the
unscaled last absolute address, and the result is unscaled. -/
def indirectTarget (differentialAddress lastAbsoluteAddress : Word) : Word :=
  unscale (differentialAddress ^^^ lastAbsoluteAddress)

/-- `sext_W(v)` (rule R8). -/
def sextW (v : Int) : Word := BitVec.ofInt 64 v

/-- `Parcels(e)` of a byte length (rule R153): `none` where it raises `BadInstructionLength`. -/
def parcels (len : Nat) : Option Nat := if len = 0 ∨ len % 2 = 1 then none else some (len / 2)

/-- A `decdig` of rule R90. -/
def decDigit (ch : Char) : Option Nat :=
  if 48 ≤ ch.toNat ∧ ch.toNat ≤ 57 then some (ch.toNat - 48) else none

/-- A `hexdig` of rule R90, of either case. -/
def hexDigit (ch : Char) : Option Nat :=
  if 97 ≤ ch.toNat ∧ ch.toNat ≤ 102 then some (ch.toNat - 87)
  else if 65 ≤ ch.toNat ∧ ch.toNat ≤ 70 then some (ch.toNat - 55)
  else decDigit ch

/-- The value of a digit string in a base, most significant digit first, after a prefix of value `acc`; `none` when
a character is no digit. -/
def digitsFrom (base : Nat) (digit : Char → Option Nat) : (acc : Nat) → Text → Option Nat
  | acc, []       => some acc
  | acc, ch :: cs =>
    match digit ch with
    | some d => digitsFrom base digit (acc * base + d) cs
    | none   => none

/-- The value of a nonempty digit string (rule R90 asks for at least one digit). -/
def digits (base : Nat) (digit : Char → Option Nat) (s : Text) : Option Nat :=
  if s = [] then none else digitsFrom base digit 0 s

/-- The magnitude of a token without its sign (rule R90): base 16 after `0x`, base 10 otherwise. -/
def magnitude : Text → Option Nat
  | '0' :: 'x' :: hs => digits 16 hexDigit hs
  | ds               => digits 10 decDigit ds

/-- The range of an offset (rule R90). -/
def inOffsetRange (v : Int) : Option Int := if -2 ^ 63 ≤ v ∧ v ≤ 2 ^ 63 - 1 then some v else none

/-- `ParseOffset(s)` (rule R90); `none` is `FAIL`. -/
def parseOffset : Text → Option Int
  | '-' :: s =>
    match magnitude s with
    | some m => inOffsetRange (-(m : Int))
    | none   => none
  | s =>
    match magnitude s with
    | some m => inOffsetRange m
    | none   => none

/-- The characters rule R91 trims: space and tab. -/
def isBlank (ch : Char) : Bool := ch.toNat == 0x20 || ch.toNat == 0x09

/-- `trim` of rule R91. -/
def trim (s : Text) : Text := ((s.dropWhile isBlank).reverse.dropWhile isBlank).reverse

/-- The last of the tokens that `split(ops, ",")` gives (rule R91): what follows the last comma, or all of it. -/
def lastToken (ops : Text) : Text := (ops.reverse.takeWhile (· ≠ ',')).reverse

/-- `OperandOffset(ops)` (rule R91); `none` is `FAIL`. -/
def operandOffset (ops : Text) : Option Int := parseOffset (trim (lastToken ops))

/-- Jump classification (rule R162): exact membership of the mnemonic. -/
def isJump (c : Cfg) (e : Entry) : Bool := c.jumpMnemonics.contains e.mnem

/-- `NextPc(a, e)` (rule R161); `none` where it raises `UnsupportedBranchOperand`. -/
def nextPc (c : Cfg) (a : Word) (e : Entry) : Option Word :=
  if isJump c e then
    match operandOffset e.ops with
    | some off => some (a + sextW off)
    | none     => none
  else some (a + BitVec.ofNat 64 e.len)

end Sys2Proof.Machine
end

