-- ==== Sys2Proof/Machine/Ops.lean ====
section
/-! DEFINITION. The shared operations over the state: error entry (rule R211), the outputs (rule R55), the Index (rule
R53), the bookkeeping every packet goes through (rules R120, R127, R164), the start of a walk (rule R152) and the
dispatch on `phase` that every packet's meaning shares. There is no return from an error (rule R213). -/

namespace Sys2Proof.Machine

/-- One outcome of a step. -/
abbrev Result := Host.Outcome State Fault Refusal

/-! ### Error entry -/

/-- The index of the packet an error is attributed to (rule R211): the one being decoded, or the one being replayed. -/
def failIndex (e : Err) (packetsProcessed : BitVec 64) : BitVec 64 :=
  match e with
  | .decode _ => packetsProcessed
  | .missingInstruction _         => packetsProcessed - 1
  | .unsupportedBranchOperand _ _ => packetsProcessed - 1
  | .expectedSync _               => packetsProcessed - 1
  | .parcelUnderflow _ _ _        => packetsProcessed - 1
  | .emptyDirectBranch            => packetsProcessed - 1
  | .badInstructionLength _ _     => packetsProcessed - 1

/-- The state after `raise E(info)` (rule R211): the error record is written, `phase` is `FAILED`, and every other
register keeps the value it had at the `raise`. -/
def State.failWith (e : Err) (s : State) : State :=
  { s with
      fail  := some ⟨e, failIndex e s.packetsProcessed, s.pktStart⟩
      phase := .failed }

/-- `raise E(info)` (rule R211), the one way an error is taken: control stays in `FAILED`, which is a next state. -/
def raise (e : Err) (s : State) : Result := .next (s.failWith e)

/-! ### Outputs -/

/-- `Emit(a, e)` (rule R55). -/
def State.emit (a : Word) (e : Entry) (s : State) : State := { s with records := s.records ++ [⟨a, e⟩] }

/-- `Event(x)` (rule R55). -/
def State.event (x : Event) (s : State) : State := { s with events := s.events ++ [x] }

/-! ### The Instruction Index -/

/-- The entry listed at an address. -/
def Index.find : Index → Nat → Option Entry
  | [], _          => none
  | (k, e) :: x, a => if k = a then some e else Index.find x a

/-- `Lookup(a)` (rule R53); `none` is `MISS`. -/
def Index.lookup (x : Index) (a : Word) : Option Entry := x.find a.toNat

/-- The Index with an entry put at an address, in its place and replacing any other there. Only the host builds the
Index, before reset (rules R54, R231): no step calls this. -/
def Index.insert (k : Nat) (e : Entry) : Index → Index
  | []            => [(k, e)]
  | (l, f) :: x   =>
    if k < l then (k, e) :: (l, f) :: x
    else if k = l then (k, e) :: x
    else (l, f) :: Index.insert k e x

/-- The Index of a list of entries, a later one replacing an earlier one at its address. -/
def Index.ofList (es : List (Word × Entry)) : Index :=
  es.foldl (fun x a => Index.insert a.1.toNat a.2 x) []

/-! ### What every packet goes through -/

/-- The state at the point where a packet has been read (rules R100, R120): `pkt_start` at its Tcode byte, `pos` after
what was read. -/
def State.consumed (pos : Nat) (s : State) : State := { s with pktStart := s.pos, pos := pos }

/-- `CountPacket()` (rule R164). -/
def State.countPacket (s : State) : State := { s with packetsProcessed := s.packetsProcessed + 1 }

/-- The end of a successful `DecodePacket` and the count that follows it: `pkt` is written whole (rules R27, R120), the
`Decoded` event appended (rule R127) and the packet counted (rule R164). -/
def State.accept (p : Packet) (s : State) : State := (({ s with pkt := p }).event (.decoded p)).countPacket

/-- The load of a walk (rule R152). -/
def State.startWalk (ctl : Ctl) (instructionCount : Word) (s : State) : State :=
  { s with remaining := instructionCount, lastEntry := none, ctl := ctl }

/-- `Ignore(p)` (rule R160). -/
def State.ignore (k : Kind) (s : State) : State := s.event (.ignored k)

/-- The packet has been decoded: account for it, then act as `InitStep` (rule R151) or `RunStep` (rule R152) does. In
the other states no packet is handled (rules R61, R150). -/
def handlePacket (p : Packet) (onInit onRun : State → Result) (s : State) : Result :=
  match s.phase with
  | .init     => onInit (s.accept p)
  | .running  => if s.ctl = .idle then onRun (s.accept p) else .fault .walkInProgress
  | .terminal => .fault .runEnded
  | .failed   => .fault .runFailed

/-- A packet other than a Synchronization packet: in `INIT` it raises `ExpectedSync` (rules R151, R206). -/
def handleNonSync (p : Packet) (onRun : State → Result) (s : State) : Result :=
  handlePacket p (raise (.expectedSync p.kind)) onRun s

end Sys2Proof.Machine
end

