-- ==== Sys2Proof/Machine/Correlation.lean ====
section
/-! DEFINITION. The TraceCorrelation packet (rules R152, R159). Its visits are `visit .byLength`. -/

namespace Sys2Proof.Machine

/-- CORR (rule R152): it starts the last walk, of no visit where the count is 0. -/
def execCorr (evcode : BitVec 2) (instructionCount timestamp : Word) (s : State) : Result :=
  handleNonSync (Instr.corr evcode instructionCount timestamp).packet
    (fun t => .next (t.startWalk .walkCorr instructionCount)) s

/-- `EndCorr()` (rule R159). -/
def endCorr (s : State) : Result :=
  .next { s with endReason := .correlation, phase := .terminal, ctl := .idle }

end Sys2Proof.Machine
end

