-- ==== Sys2Proof/Machine/Direct.lean ====
section
/-! DEFINITION. The DirectBranchCount packet (rules R152, R155, R156). Its visits are `visit .byLength`. -/

namespace Sys2Proof.Machine

/-- DBR (rule R152): a count of 0 is `EmptyDirectBranch` (rule R208); any other starts a direct walk. -/
def execDbr (instructionCount timestamp : Word) (s : State) : Result :=
  handleNonSync (Instr.dbr instructionCount timestamp).packet
    (fun t =>
      if instructionCount = 0 then raise .emptyDirectBranch t
      else .next (t.startWalk .walkDirect instructionCount)) s

/-- `ResolveDirect()` (rule R156): the target is relative to the last visited instruction's own address. -/
def resolveDirect (s : State) : Result :=
  match s.lastEntry with
  | none   => .fault .noLastEntry
  | some e =>
    match operandOffset e.ops with
    | none     => raise (.unsupportedBranchOperand s.lastVisited e.ops) s
    | some off => .next { s with currentPc := s.lastVisited + sextW off, ctl := .idle }

end Sys2Proof.Machine
end

