-- ==== Sys2Proof/Machine/Indirect.lean ====
section
/-! DEFINITION. The IndirectBranchCount packet (rules R152, R157, R158). Its visits are `visit .jumpAware`. -/

namespace Sys2Proof.Machine

/-- IBR (rule R152): it starts an indirect walk, of no visit where the count is 0. -/
def execIbr (branchType : BranchType) (instructionCount differentialAddress timestamp : Word) (s : State) : Result :=
  handleNonSync (Instr.ibr branchType instructionCount differentialAddress timestamp).packet
    (fun t => .next (t.startWalk .walkIndirect instructionCount)) s

/-- `ResolveIndirect()` (rule R158). -/
def resolveIndirect (s : State) : Result :=
  let t := indirectTarget s.pkt.differentialAddress s.lastAbsoluteAddress
  .next { s with currentPc := t, lastAbsoluteAddress := t, ctl := .idle }

end Sys2Proof.Machine
end

