-- ==== Sys2Proof/Machine/Other.lean ====
section
/-! DEFINITION. The recognized-but-unhandled packets (rules R125 and R160): one shared operation and one meaning per row
of the opcode table. -/

namespace Sys2Proof.Machine

/-- A recognized-but-unhandled packet of Tcode `t`: ignored while `RUNNING` (rule R160), `ExpectedSync` in `INIT`
(rule R151). -/
def runOther (t : Tcode) (s : State) : Result :=
  handleNonSync (otherPacket t) (fun u => .next (u.ignore (.other t))) s

/-- OTHER(2), Ownership (rules R75, R160). -/
def execOther2 (s : State) : Result := runOther 2 s

/-- OTHER(8), Error (rules R75, R160). -/
def execOther8 (s : State) : Result := runOther 8 s

/-- OTHER(11), DirectBranchSync (rules R75, R160). -/
def execOther11 (s : State) : Result := runOther 11 s

/-- OTHER(12), IndirectBranchSync (rules R75, R160). -/
def execOther12 (s : State) : Result := runOther 12 s

/-- OTHER(27), ResourceFull (rules R75, R160). -/
def execOther27 (s : State) : Result := runOther 27 s

/-- OTHER(28), IndirectBranchHist (rules R75, R160). -/
def execOther28 (s : State) : Result := runOther 28 s

/-- OTHER(29), IndirectBranchHistSync (rules R75, R160). -/
def execOther29 (s : State) : Result := runOther 29 s

end Sys2Proof.Machine
end

