-- ==== Sys2Proof/Machine/Sync.lean ====
section
/-! DEFINITION. The Synchronization packet (rules R151 and R160). -/

namespace Sys2Proof.Machine

/-- The end of `InitStep` (rule R151): the trace's entry point. -/
def State.enterAt (a : Word) (s : State) : State :=
  { s with currentPc := a, lastAbsoluteAddress := a, phase := .running }

/-- SYNC: in `INIT` it sets the entry point (rule R151); in `RUNNING` it is ignored (rule R160, decision D23). -/
def execSync (marker : BitVec 4) (fullAddress timestamp : Word) (s : State) : Result :=
  handlePacket (Instr.sync marker fullAddress timestamp).packet
    (fun t => .next (t.enterAt (unscale fullAddress)))
    (fun t => .next (t.ignore .sync)) s

end Sys2Proof.Machine
end

