-- ==== Sys2Proof/Machine/Dispatch.lean ====
section
/-! DEFINITION. One arm per packet kind of the opcode table. -/

namespace Sys2Proof.Machine

-- `exec i s` is what `InitStep` or `RunStep` does once the packet `i` has been read: `s` has `pkt_start` and `pos`
-- as the read left them.
def exec (i : Instr) (s : State) : Host.Outcome State Fault Refusal :=
  match i with
  | .sync marker fullAddress timestamp => Sys2Proof.Machine.execSync marker fullAddress timestamp s
  | .dbr count timestamp => Sys2Proof.Machine.execDbr count timestamp s
  | .ibr branchType count differential timestamp => Sys2Proof.Machine.execIbr branchType count differential timestamp s
  | .corr evcode count timestamp => Sys2Proof.Machine.execCorr evcode count timestamp s
  | .other2 => Sys2Proof.Machine.execOther2 s
  | .other8 => Sys2Proof.Machine.execOther8 s
  | .other11 => Sys2Proof.Machine.execOther11 s
  | .other12 => Sys2Proof.Machine.execOther12 s
  | .other27 => Sys2Proof.Machine.execOther27 s
  | .other28 => Sys2Proof.Machine.execOther28 s
  | .other29 => Sys2Proof.Machine.execOther29 s

end Sys2Proof.Machine
end

