-- ==== Sys2Proof/Machine/Walk.lean ====
section
/-! DEFINITION. The visit that every walk is made of (rules R153 to R155, R157, R161). -/

namespace Sys2Proof.Machine

/-- The mode of a visit (rule R154). -/
inductive VisitMode where
  | byLength
  | jumpAware
deriving DecidableEq, Repr

/-- `ModeOf(ctl)` (rule R150); it is only asked for a walk. -/
def modeOf : Ctl → VisitMode
  | .walkIndirect => .jumpAware
  | .walkDirect   => .byLength
  | .walkCorr     => .byLength
  | .idle         => .byLength

/-- The address after a visit of `e` at `a` (rule R154); `none` where `NextPc` raises `UnsupportedBranchOperand`. -/
def visitTarget (mode : VisitMode) (c : Cfg) (a : Word) (e : Entry) : Option Word :=
  match mode with
  | .byLength  => some (a + BitVec.ofNat 64 e.len)
  | .jumpAware => nextPc c a e

/-- The record and the walk registers a visit writes before its count is checked (rule R154). -/
def State.noteVisit (a : Word) (e : Entry) (s : State) : State :=
  { s.emit a e with lastVisited := a, lastEntry := some e }

/-- The decrement of a visit, made under the guard `n <= remaining` (rules R9 and R154). -/
def State.takeParcels (n : Nat) (s : State) : State := { s with remaining := s.remaining - BitVec.ofNat 64 n }

/-- `Visit(mode)` (rule R154), its errors in the order of its lines (rule R212). -/
def visit (mode : VisitMode) (s : State) : Result :=
  let a := s.currentPc
  match s.index.lookup a with
  | none   => raise (.missingInstruction a) s
  | some e =>
    match parcels e.len with
    | none   => raise (.badInstructionLength a e.len) s
    | some n =>
      let t := s.noteVisit a e
      if s.remaining.toNat < n then raise (.parcelUnderflow a n s.remaining) t
      else
        let u := t.takeParcels n
        match visitTarget mode s.cfg a e with
        | none    => raise (.unsupportedBranchOperand a e.ops) u
        | some pc => .next { u with currentPc := pc }

end Sys2Proof.Machine
end

