-- ==== Sys2Proof/Machine/Engine.lean ====
section
/-! DEFINITION. The step relation (rule R150): reading the next packet and running it, the steps of a walk, and the
placing of a packet where the next step reads. -/

namespace Sys2Proof.Machine

/-- The stream from the read pointer on (rules R22, R51). -/
def State.reader (s : State) : Reader := ⟨s.pos, s.trace.drop s.pos⟩

/-- Run what the decoder gave. -/
def runItem (x : Item) (s : State) : Result :=
  match x with
  | .row i      => exec i s
  | .unlisted t => runOther t s

/-- `DecodePacket` (rule R120) and what `InitStep` or `RunStep` does with the packet. A failed decode keeps the bytes it
consumed and raises its error; `pkt` and `events` are unchanged (rule R128). -/
def readPacket (s : State) : Result :=
  match decodePacket s.cfg s.reader with
  | .err e r => raise (.decode e) (s.consumed r.pos)
  | .ok x r  => runItem x (s.consumed r.pos)

/-- The stream has ended at a packet boundary (rule R152). -/
def endOfStream (s : State) : Result := .next { s with endReason := .endOfStream, phase := .terminal }

/-- `RunStep()` (rule R152). -/
def runStep (s : State) : Result := if s.pos = s.trace.length then endOfStream s else readPacket s

/-- The resolution that ends a walk (rule R150). -/
def resolve (s : State) : Result :=
  match s.ctl with
  | .walkDirect   => resolveDirect s
  | .walkIndirect => resolveIndirect s
  | .walkCorr     => endCorr s
  | .idle         => runStep s

/-- The dispatch of rule R150 in `RUNNING`. -/
def runningStep (s : State) : Result :=
  if s.ctl = .idle then runStep s
  else if s.remaining = 0 then resolve s
  else visit (modeOf s.ctl) s

/-- `Step()` (rule R150). A final state has no step, and a configuration that violates rule R6 is refused. -/
def engineStep (s : State) : Result :=
  if s.cfg.wf then
    match s.phase with
    | .init     => readPacket s
    | .running  => runningStep s
    | .terminal => .fault .runEnded
    | .failed   => .fault .runFailed
  else .refused .badConfig

/-- The trace with `bytes` at offset `pos`, every other byte kept; offsets below `pos` that the trace lacks are 0. -/
def overwriteAt (trace : List Byte) (pos : Nat) (bytes : List Byte) : List Byte :=
  trace.take pos ++ List.replicate (pos - trace.length) 0 ++ bytes ++ trace.drop (pos + bytes.length)

/-- The state with a table word, made a whole packet, where the next step reads (assumption 6). A state in `INIT`, or
`RUNNING` between packets, reads there next; any other is put in `RUNNING` between packets, which reading needs. -/
def placeWord (s : State) (nbits w : Nat) : State :=
  { s with
      trace := overwriteAt s.trace s.pos (wholePacket s.cfg (bytesOfWord ((nbits + 7) / 8) w))
      phase := if s.phase = .init then .init else .running
      ctl   := if s.phase = .init then s.ctl else .idle }

end Sys2Proof.Machine
end

