-- ==== Sys2Proof/Machine/Step.lean ====
section
/-! DEFINITION. The step of the machine and the placing of its next instruction. -/

namespace Sys2Proof.Machine

/-- One step of the decoder core (rule R150). -/
def step : State → Host.Outcome State Fault Refusal := engineStep

/-- The state with the instruction of a table word where `step` reads its next packet (assumption 6). -/
def State.withFetchWord (s : State) (nbits w : Nat) : State := placeWord s nbits w

end Sys2Proof.Machine
end

