-- ==== Sys2Proof/Safety.lean ====
section
/-! DEFINITION. What counts as a safe run, in the terms the claims use: the final states (rule R239), a run that
succeeds (rule R241), the invariant of the machine, and the walks of rules R155, R157 and R159 as sequences of
records. -/

namespace Sys2Proof

/-- A field of a Packet that is not meaningful for its kind has its empty value (rule R27, conflict C1). -/
structure Packet.Shaped (p : Packet) : Prop where
  sync  : p.kind ≠ .sync → p.fullAddress = 0 ∧ p.syncMarker = 0
  ibr   : p.kind ≠ .ibr → p.differentialAddress = 0 ∧ p.branchType = .indirect
  corr  : p.kind ≠ .corr → p.evcode = 0
  count : p.kind ≠ .dbr → p.kind ≠ .ibr → p.kind ≠ .corr → p.instructionCount = 0
  stamp : p.kind ≠ .sync → p.kind ≠ .dbr → p.kind ≠ .ibr → p.kind ≠ .corr → p.timestamp = 0

namespace Machine

/-- A run is over exactly in `TERMINAL` and `FAILED` (rule R239). -/
def State.final (s : State) : Prop := s.phase = .terminal ∨ s.phase = .failed

/-- A run has succeeded when it has ended with no error recorded (rules R239 and R241). -/
def State.succeeded (s : State) : Prop := s.phase = .terminal ∧ s.fail = none

/-- The packets that the events say were decoded, in order (rule R127). -/
def decodedPackets : List Event → List Packet
  | []               => []
  | .decoded p :: xs => p :: decodedPackets xs
  | .ignored _ :: xs => decodedPackets xs

/-- The number of packets decoded, the `P` of rule R237. -/
def decodedCount (es : List Event) : Nat := (decodedPackets es).length

/-- The sum of the `instruction_count` values decoded, the `S` of rule R237. -/
def instructionCountSum (es : List Event) : Nat :=
  ((decodedPackets es).map fun p => p.instructionCount.toNat).sum

/-- The invariant of the machine. -/
structure State.Inv (s : State) : Prop where
  /-- The Index keeps its canonical form (rule R54). -/
  indexWf       : s.index.wf = true
  /-- `0 <= pos <= L` (rule R22). -/
  posLe         : s.pos ≤ s.trace.length
  /-- The current packet starts at or before the read pointer (rule R23). -/
  startLe       : s.pktStart ≤ s.pos
  /-- `packets_processed` counts the decoded packets (rules R24, R164). -/
  counted       : s.packetsProcessed = BitVec.ofNat 64 (decodedCount s.events)
  /-- The count is bounded by the bytes consumed (rule R24). -/
  countLe       : decodedCount s.events ≤ s.pos
  /-- In `INIT` every register holds its reset value (rules R39, R232). -/
  initLaunch    : s.phase = .init → s = State.launch s.cfg s.index s.trace
  /-- Past `INIT`, and short of a failure, a packet has been decoded (rule R151). -/
  runningCount  : s.phase = .running ∨ s.phase = .terminal → 0 < decodedCount s.events
  /-- `fail` is set exactly in `FAILED` (rules R31, R211). -/
  failIff       : s.phase = .failed ↔ s.fail ≠ none
  /-- The error record's offset is that of the packet's Tcode byte (rule R211). -/
  failOffset    : ∀ f, s.fail = some f → f.offset = s.pktStart
  /-- `end_reason` is set exactly in `TERMINAL` (rules R30, R152, R159). -/
  endIff        : s.phase = .terminal ↔ s.endReason ≠ .none
  /-- A walk is in progress only while `RUNNING`, or where an error stopped it (rules R21, R211). -/
  walkPhase     : s.ctl ≠ .idle → s.phase = .running ∨ s.phase = .failed
  /-- A direct walk is a DirectBranchCount packet's (rules R21, R152). -/
  walkDirect    : s.ctl = .walkDirect → s.pkt.kind = .dbr
  /-- An indirect walk is an IndirectBranchCount packet's. -/
  walkIndirect  : s.ctl = .walkIndirect → s.pkt.kind = .ibr
  /-- The last walk is a TraceCorrelation packet's. -/
  walkCorr      : s.ctl = .walkCorr → s.pkt.kind = .corr
  /-- A walk never has more parcels left than its packet counted (rules R28, R154). -/
  remainingLe   : s.ctl ≠ .idle → s.remaining ≤ s.pkt.instructionCount
  /-- A direct walk about to resolve has a last entry (rule R156: "never NONE"). -/
  directEntry   : s.ctl = .walkDirect → s.remaining = 0 → s.lastEntry ≠ none
  /-- The last entry is the Index's at the last visited address (rules R29, R154). -/
  lastVisitedIn : ∀ e, s.lastEntry = some e → s.index.lookup s.lastVisited = some e
  /-- An absolute address comes out of `unscale`, so it is even (rules R26, R58, R86). -/
  lastEven      : s.lastAbsoluteAddress.toNat % 2 = 0
  /-- Every record is an Index entry at its address, of a legal length (rules R153, R154, R166). -/
  recordsIn     : ∀ r ∈ s.records,
    s.index.lookup r.address = some r.entry ∧ r.entry.len ≠ 0 ∧ r.entry.len % 2 = 0
  /-- The Packet register holds only the fields its kind gives meaning to (rule R27). -/
  pktShaped     : s.pkt.Shaped

/-- The records `rs` are the visits of a walk that starts at `a` and leaves the program counter at `z`, `next` giving
the address after each visit (rules R154, R166). -/
def IsWalk (next : Word → Entry → Option Word) (x : Index) : (a : Word) → (rs : List Record) → (z : Word) → Prop
  | a, [], z      => a = z
  | a, r :: rs, z =>
    r.address = a ∧ x.lookup a = some r.entry ∧ ∃ b, next a r.entry = some b ∧ IsWalk next x b rs z

/-- The step of a `BY_LENGTH` walk (rules R154, R155). -/
def nextByLength (a : Word) (e : Entry) : Option Word := some (a + BitVec.ofNat 64 e.len)

/-- The parcels of a sequence of records (rule R153), if every length is legal. -/
def parcelSum : List Record → Option Nat
  | []      => some 0
  | r :: rs =>
    match parcels r.entry.len, parcelSum rs with
    | some n, some m => some (n + m)
    | _, _           => none

end Machine

end Sys2Proof
end

