-- ==== Sys2Proof/Certificates/Slice0/Obligations.lean ====
section
/-! DEFINITION. The statements about the decoder core, from the numbered rules of spec/. Helpers of the statements stand in
`Sys2Proof.Claims` and are written from the rules, not from the model's own operations. -/

namespace Sys2Proof.Claims

open Sys2Proof.Machine

/-- A field run for a terminator (rules R72 and R101): the last byte carries it and no earlier byte does. -/
def IsRun (tag : Tag) (run : List Byte) : Prop :=
  ∃ xs b, run = xs ++ [b] ∧ b.toNat % 4 = tag.toNat ∧ ∀ x ∈ xs, x.toNat % 4 ≠ tag.toNat

/-- The 6-bit payload `run[i][7:2]` (rule R70). -/
def payload (run : List Byte) (i : Nat) : Nat := (run.getD i 0).toNat / 4

/-- `run[0][7:6]`. -/
def high2 (run : List Byte) : Nat := (run.getD 0 0).toNat / 64

/-- `run[0][5:2]`. -/
def low4 (run : List Byte) : Nat := (run.getD 0 0).toNat / 4 % 16

/-- The value of a field whose byte 0 gives the `k`-bit `v0` (rules R82 and R102): byte `i + 1` at offset `k + 6i`. -/
def fieldValue (v0 k : Nat) (run : List Byte) : Nat :=
  v0 + ∑ i ∈ Finset.range (run.length - 1), payload run (i + 1) * 2 ^ (k + 6 * i)

/-- Bytes that hold no terminator: a run read over them does not end (rule R101). -/
def Unended (tag : Tag) (bs : List Byte) : Prop := ∀ b ∈ bs, b.toNat % 4 ≠ tag.toNat

/-- A value that raises no `FieldOverflow` (rule R83). -/
def Fits (c : Cfg) (v : Nat) : Prop := c.fieldOverflow = .truncate ∨ v < 2 ^ 64

/-- Run `a` after a Tcode byte `t` of a handled kind is one whose first field is assembled (rules R77 to R80): `v0` is the
`k`-bit part that byte 0 gives. For SYNC the marker in byte 0 is the expected one (rule R212). -/
def FirstField (c : Cfg) (t : Byte) (a : List Byte) (v0 k : Nat) : Prop :=
  (t.toNat / 4 = c.tcSync.toNat ∧ low4 a = c.syncMarker.toNat ∧ v0 = high2 a ∧ k = 2) ∨
  (t.toNat / 4 = c.tcDbr.toNat ∧ v0 = payload a 0 ∧ k = 6) ∨
  ((t.toNat / 4 = c.tcIbr.toNat ∨ t.toNat / 4 = c.tcCorr.toNat) ∧ v0 = low4 a ∧ k = 4)

/-- The terminator of the second run of a handled kind (rules R77 to R80): IBR has a third run, the others end there. -/
def secondTag (c : Cfg) (t : Byte) : Tag := if t.toNat / 4 = c.tcIbr.toNat then c.tagEof else c.tagEom

/-- A digit of rule R90 and its value. -/
def DecDig (ch : Char) (d : Nat) : Prop := d < 10 ∧ ch = Char.ofNat (48 + d)

/-- A hexadecimal digit of rule R90, of either case, and its value. -/
def HexDig (ch : Char) (d : Nat) : Prop :=
  DecDig ch d ∨ (10 ≤ d ∧ d < 16 ∧ (ch = Char.ofNat (87 + d) ∨ ch = Char.ofNat (55 + d)))

/-- A nonempty digit string and its value, most significant digit first. -/
def Numeral (base : Nat) (dig : Char → Nat → Prop) (s : Text) (n : Nat) : Prop :=
  ∃ ds : List Nat, ds ≠ [] ∧ List.Forall₂ dig s ds ∧ n = Nat.ofDigits base ds.reverse

/-- An unsigned token of rule R90's grammar and its value. -/
def Unsigned (s : Text) (n : Nat) : Prop :=
  (∃ hs, s = '0' :: 'x' :: hs ∧ Numeral 16 HexDig hs n) ∨ Numeral 10 DecDig s n

/-- A space or a tab (rule R91). -/
def Blank (ch : Char) : Prop := ch = ' ' ∨ ch = '\t'

/-- What the Packet Decoder gives at the read pointer. -/
def readAt (s : State) : Read Item := decodePacket s.cfg ⟨s.pos, s.trace.drop s.pos⟩

/-- The bookkeeping of a decoded packet (rules R120, R127, R164). -/
def accounted (p : Packet) (s : State) : State :=
  { s with pkt := p, events := s.events ++ [.decoded p], packetsProcessed := s.packetsProcessed + 1 }

/-- The stream consumed up to `pos` for one packet (rules R22, R23, R120). -/
def consumedTo (pos : Nat) (s : State) : State := { s with pktStart := s.pos, pos := pos }

/-- Error entry (rule R211) with a given packet index. -/
def failedAs (e : Err) (index : BitVec 64) (s : State) : State :=
  { s with fail := some ⟨e, index, s.pktStart⟩, phase := .failed }

/-- A visit is the enabled step (rule R150). -/
def Visiting (s : State) : Prop := s.cfg.wf = true ∧ s.phase = .running ∧ s.ctl ≠ .idle ∧ s.remaining ≠ 0

/-- A length of whole parcels (rule R153). -/
def LegalLength (e : Entry) : Prop := e.len ≠ 0 ∧ e.len % 2 = 0

/-- What a visit has written when it checks its count (rule R154). -/
def visited (e : Entry) (s : State) : State :=
  { s with records := s.records ++ [⟨s.currentPc, e⟩], lastVisited := s.currentPc, lastEntry := some e }

/-- The count after a visit of `e` (rules R153 and R154). -/
def remainingAfter (e : Entry) (s : State) : Word := s.remaining - BitVec.ofNat 64 (e.len / 2)

/-- `NextPc` (rule R161). -/
def jumpAwareNext (c : Cfg) (a : Word) (e : Entry) : Option Word :=
  if e.mnem ∈ c.jumpMnemonics then (operandOffset e.ops).map fun off => a + BitVec.ofInt 64 off
  else some (a + BitVec.ofNat 64 e.len)

/-- The state after the visits `rs` of a walk that counts exactly them and leaves the program counter at `z`. -/
def walked (rs : List Record) (z : Word) (s : State) : State :=
  { s with
      records     := s.records ++ rs
      lastVisited := (rs.getLast?.map fun r => r.address).getD s.lastVisited
      lastEntry   := (rs.getLast?.map fun r => some r.entry).getD s.lastEntry
      remaining   := 0
      currentPc   := z }

/-- A state without the data that is only forwarded to the caller (rules R84, R85, R217). -/
def withoutForwarded (s : State) : State :=
  { s with events := [], pkt := { s.pkt with timestamp := 0, branchType := .indirect, evcode := 0 } }

/-- Two outcomes that agree but for the forwarded data. -/
def SameReplay (x y : Host.Outcome State Fault Refusal) : Prop :=
  (∃ t u, x = .next t ∧ y = .next u ∧ withoutForwarded t = withoutForwarded u) ∨
  (∃ f, x = .fault f ∧ y = .fault f) ∨ ∃ r, x = .refused r ∧ y = .refused r

end Sys2Proof.Claims

open Sys2Proof Sys2Proof.Machine Sys2Proof.Claims

/-! ### The Bitfield Reader -/

/-- R100: a byte is read and `pos` moves by one; at the end of the stream the read fails and nothing moves. -/
def Obligations.ReadByteConsumesOneByte : Prop :=
  (∀ (p : Nat) (b : Byte) (bs : List Byte), readByte ⟨p, b :: bs⟩ = .ok b ⟨p + 1, bs⟩) ∧
  ∀ p : Nat, readByte ⟨p, []⟩ = .err (.unexpectedEof p) ⟨p, []⟩

/-- R101: a field read returns the run up to and with the first byte that carries the terminator, and fails at the end
of the stream where there is none. -/
def Obligations.FieldReadStopsAtItsTerminator : Prop :=
  (∀ (tag : Tag) (p : Nat) (run rest : List Byte), IsRun tag run →
    readFieldUntil tag ⟨p, run ++ rest⟩ = .ok run ⟨p + run.length, rest⟩) ∧
  ∀ (tag : Tag) (p : Nat) (bs : List Byte), Unended tag bs →
    readFieldUntil tag ⟨p, bs⟩ = .err (.unexpectedEof (p + bs.length)) ⟨p + bs.length, []⟩

/-- R102, R103: the packed value is the little-endian sum of the groups; a value at or above `2^W` is `FieldOverflow`
under `FAULT` and is taken modulo `2^W` under `TRUNCATE`. -/
def Obligations.PackedFieldValue : Prop :=
  (∀ (c : Cfg) (v0 k : Nat) (run : List Byte) (r : Reader),
    packK c v0 k run r =
      if 2 ^ 64 ≤ fieldValue v0 k run ∧ c.fieldOverflow = .fault then .err (.fieldOverflow r.pos) r
      else .ok (BitVec.ofNat 64 (fieldValue v0 k run)) r) ∧
  ∀ (c : Cfg) (run : List Byte) (r : Reader), run ≠ [] →
    pack6 c run r = packK c (payload run 0) 6 run r ∧
      fieldValue (payload run 0) 6 run = ∑ i ∈ Finset.range run.length, payload run i * 2 ^ (6 * i)

/-- R105: a value written as its canonical run, whatever flag bits its byte 0 carries, is read back and packs to
itself. With `0b00` as the terminator the encoder's continuation tag is the model's choice (assumption 5). -/
def Obligations.FieldRoundTrip : Prop :=
  ∀ (c : Cfg) (tag : Tag) (p0 : BitVec 6) (k p : Nat) (v : Word) (rest : List Byte), k = 2 ∨ k = 4 ∨ k = 6 →
    readFieldUntil tag ⟨p, encodeRun tag p0 k v ++ rest⟩ =
        .ok (encodeRun tag p0 k v) ⟨p + (encodeRun tag p0 k v).length, rest⟩ ∧
      payload (encodeRun tag p0 k v) 0 = p0.toNat ∧
      ∀ r : Reader, packK c (v.toNat % 2 ^ k) k (encodeRun tag p0 k v) r = .ok v r

/-- R92: the canonical run carries the value, in one byte, or one and as many groups as the bits above the `k` lowest take,
and no run that carries the value is shorter. That it is a run with `0b00` as the terminator rests on the encoder's
continuation tag there, which is the model's choice (assumption 5). -/
def Obligations.CanonicalRunIsShortest : Prop :=
  ∀ (tag : Tag) (p0 : BitVec 6) (k : Nat) (v : Word), 2 ≤ k →
    (encodeRun tag p0 k v).length = (if v.toNat < 2 ^ k then 1 else 1 + (Nat.size v.toNat - k + 5) / 6) ∧
    IsRun tag (encodeRun tag p0 k v) ∧ fieldValue (v.toNat % 2 ^ k) k (encodeRun tag p0 k v) = v.toNat ∧
    ∀ (run : List Byte) (v0 : Nat), IsRun tag run → v0 < 2 ^ k → fieldValue v0 k run = v.toNat →
      (encodeRun tag p0 k v).length ≤ run.length

/-! ### The Packet Decoder -/

/-- R77, R202: the Synchronization layout for every encoding of it, canonical or not, and the marker check, which is made
after run A and before anything of run B is read. -/
def Obligations.SyncLayout : Prop :=
  ∀ (c : Cfg) (p : Nat) (t : Byte) (a rest : List Byte), c.wf = true → t.toNat / 4 = c.tcSync.toNat →
    IsRun c.tagEof a →
    (low4 a = c.syncMarker.toNat → ∀ b : List Byte, IsRun c.tagEom b →
      Fits c (fieldValue (high2 a) 2 a) → Fits c (fieldValue (payload b 0) 6 b) →
      decodePacket c ⟨p, t :: (a ++ b ++ rest)⟩ =
        .ok (.row (.sync c.syncMarker (BitVec.ofNat 64 (fieldValue (high2 a) 2 a))
            (BitVec.ofNat 64 (fieldValue (payload b 0) 6 b))))
          ⟨p + 1 + a.length + b.length, rest⟩) ∧
    (low4 a ≠ c.syncMarker.toNat →
      decodePacket c ⟨p, t :: (a ++ rest)⟩ =
        .err (.syncMarkerMismatch (BitVec.ofNat 4 (low4 a))) ⟨p + 1 + a.length, rest⟩)

/-- R78: the DirectBranchCount layout for every encoding of it. -/
def Obligations.DbrLayout : Prop :=
  ∀ (c : Cfg) (p : Nat) (t : Byte) (a b rest : List Byte), c.wf = true → t.toNat / 4 = c.tcDbr.toNat →
    IsRun c.tagEof a → IsRun c.tagEom b →
    Fits c (fieldValue (payload a 0) 6 a) → Fits c (fieldValue (payload b 0) 6 b) →
    decodePacket c ⟨p, t :: (a ++ b ++ rest)⟩ =
      .ok (.row (.dbr (BitVec.ofNat 64 (fieldValue (payload a 0) 6 a))
          (BitVec.ofNat 64 (fieldValue (payload b 0) 6 b))))
        ⟨p + 1 + a.length + b.length, rest⟩

/-- R79, R84: the IndirectBranchCount layout for every encoding of it, with the four branch-type codes. -/
def Obligations.IbrLayout : Prop :=
  ∀ (c : Cfg) (p : Nat) (t : Byte) (a b d rest : List Byte), c.wf = true → t.toNat / 4 = c.tcIbr.toNat →
    IsRun c.tagEof a → IsRun c.tagEof b → IsRun c.tagEom d →
    Fits c (fieldValue (low4 a) 4 a) → Fits c (fieldValue (payload b 0) 6 b) →
    Fits c (fieldValue (payload d 0) 6 d) →
    ∃ bt : BranchType,
      (high2 a = 0 → bt = .indirect) ∧ (high2 a = 1 → bt = .trap) ∧ (high2 a = 2 → bt = .exception) ∧
      (high2 a = 3 → bt = .interrupt) ∧
      decodePacket c ⟨p, t :: (a ++ b ++ d ++ rest)⟩ =
        .ok (.row (.ibr bt (BitVec.ofNat 64 (fieldValue (low4 a) 4 a))
            (BitVec.ofNat 64 (fieldValue (payload b 0) 6 b)) (BitVec.ofNat 64 (fieldValue (payload d 0) 6 d))))
          ⟨p + 1 + a.length + b.length + d.length, rest⟩

/-- R80: the TraceCorrelation layout for every encoding of it; every event code is legal. -/
def Obligations.CorrLayout : Prop :=
  ∀ (c : Cfg) (p : Nat) (t : Byte) (a b rest : List Byte), c.wf = true → t.toNat / 4 = c.tcCorr.toNat →
    IsRun c.tagEof a → IsRun c.tagEom b →
    Fits c (fieldValue (low4 a) 4 a) → Fits c (fieldValue (payload b 0) 6 b) →
    decodePacket c ⟨p, t :: (a ++ b ++ rest)⟩ =
      .ok (.row (.corr (BitVec.ofNat 2 (high2 a)) (BitVec.ofNat 64 (fieldValue (low4 a) 4 a))
          (BitVec.ofNat 64 (fieldValue (payload b 0) 6 b))))
        ⟨p + 1 + a.length + b.length, rest⟩

/-- R81, R125: a recognized-but-unhandled packet, under either policy and for any member of `TC_OTHER`: only `kind` is
decoded. -/
def Obligations.OtherLayout : Prop :=
  ∀ (c : Cfg) (p : Nat) (t : Byte) (tc : Tcode) (rest : List Byte), c.wf = true → tc ∈ c.tcOther →
    t.toNat / 4 = tc.toNat →
    ∃ x : Item, x.packet = { Packet.empty with kind := .other tc } ∧
      (c.unhandledPolicy = .tcodeOnly ∨ t.toNat % 4 = c.tagEom.toNat →
        decodePacket c ⟨p, t :: rest⟩ = .ok x ⟨p + 1, rest⟩) ∧
      (c.unhandledPolicy = .skipToEom → t.toNat % 4 ≠ c.tagEom.toNat → ∀ run : List Byte, IsRun c.tagEom run →
        decodePacket c ⟨p, t :: (run ++ rest)⟩ = .ok x ⟨p + 1 + run.length, rest⟩)

/-- R126: a Tcode that is neither handled nor in `TC_OTHER` stops the decode just past the Tcode byte. -/
def Obligations.UnknownTcodeIsInvalid : Prop :=
  ∀ (c : Cfg) (p : Nat) (t : Byte) (rest : List Byte) (tc : Tcode), tc.toNat = t.toNat / 4 →
    tc ≠ c.tcSync → tc ≠ c.tcDbr → tc ≠ c.tcIbr → tc ≠ c.tcCorr → tc ∉ c.tcOther →
    decodePacket c ⟨p, t :: rest⟩ = .err (.invalidTcode tc) ⟨p + 1, rest⟩

/-- R210, R212: under `FAULT`, a field that has a 1 bit at position `W` or above stops the decode of any handled kind just
past the field's own run, before the next run is read, whichever field it is: the first one (for SYNC, after the marker
check), the one after it (the timestamp; for IBR the differential address), and the timestamp of IBR. -/
def Obligations.FieldOverflowStopsTheDecode : Prop :=
  ∀ (c : Cfg) (p : Nat) (t : Byte) (a rest : List Byte) (v0 k : Nat), c.wf = true → c.fieldOverflow = .fault →
    IsRun c.tagEof a → FirstField c t a v0 k →
    (2 ^ 64 ≤ fieldValue v0 k a →
      decodePacket c ⟨p, t :: (a ++ rest)⟩ = .err (.fieldOverflow (p + 1 + a.length)) ⟨p + 1 + a.length, rest⟩) ∧
    (fieldValue v0 k a < 2 ^ 64 → ∀ b : List Byte, IsRun (secondTag c t) b →
      (2 ^ 64 ≤ fieldValue (payload b 0) 6 b →
        decodePacket c ⟨p, t :: (a ++ b ++ rest)⟩ =
          .err (.fieldOverflow (p + 1 + a.length + b.length)) ⟨p + 1 + a.length + b.length, rest⟩) ∧
      (fieldValue (payload b 0) 6 b < 2 ^ 64 → t.toNat / 4 = c.tcIbr.toNat → ∀ d : List Byte, IsRun c.tagEom d →
        2 ^ 64 ≤ fieldValue (payload d 0) 6 d →
        decodePacket c ⟨p, t :: (a ++ b ++ d ++ rest)⟩ =
          .err (.fieldOverflow (p + 1 + a.length + b.length + d.length))
            ⟨p + 1 + a.length + b.length + d.length, rest⟩))

/-- R38: no lookahead. A packet that decodes depends on the bytes it consumes alone: on any other stream that begins with
them, at any offset, the decoder gives the same packet and consumes the same bytes. -/
def Obligations.DecodeLooksNoFurther : Prop :=
  ∀ (c : Cfg) (p : Nat) (bs : List Byte) (x : Item) (r : Reader), decodePacket c ⟨p, bs⟩ = .ok x r →
    ∃ n, 0 < n ∧ n ≤ bs.length ∧ r = ⟨p + n, bs.drop n⟩ ∧
      ∀ (q : Nat) (rest : List Byte), decodePacket c ⟨q, bs.take n ++ rest⟩ = .ok x ⟨q + n, rest⟩

/-- R201, R212: a packet cut short anywhere fails with `UnexpectedEof` at the cut, and so does any stream that ends inside
the run being read: an empty one; run A of a handled kind, before its marker or its value is looked at; each later run,
once the runs before it have been accepted; and the run a skipped packet is discarded to the end of. -/
def Obligations.TruncatedPacketFails : Prop :=
  (∀ (c : Cfg) (p m : Nat) (bs : List Byte) (x : Item) (r : Reader), decodePacket c ⟨p, bs⟩ = .ok x r →
    p + m < r.pos → decodePacket c ⟨p, bs.take m⟩ = .err (.unexpectedEof (p + m)) ⟨p + m, []⟩) ∧
  (∀ (c : Cfg) (p : Nat), decodePacket c ⟨p, []⟩ = .err (.unexpectedEof p) ⟨p, []⟩) ∧
  (∀ (c : Cfg) (p : Nat) (t : Byte) (bs : List Byte), c.wf = true →
    t.toNat / 4 = c.tcSync.toNat ∨ t.toNat / 4 = c.tcDbr.toNat ∨ t.toNat / 4 = c.tcIbr.toNat ∨
      t.toNat / 4 = c.tcCorr.toNat →
    Unended c.tagEof bs →
    decodePacket c ⟨p, t :: bs⟩ = .err (.unexpectedEof (p + 1 + bs.length)) ⟨p + 1 + bs.length, []⟩) ∧
  (∀ (c : Cfg) (p : Nat) (t : Byte) (a : List Byte) (v0 k : Nat), c.wf = true → IsRun c.tagEof a →
    FirstField c t a v0 k → Fits c (fieldValue v0 k a) →
    (∀ bs : List Byte, Unended (secondTag c t) bs →
      decodePacket c ⟨p, t :: (a ++ bs)⟩ =
        .err (.unexpectedEof (p + 1 + a.length + bs.length)) ⟨p + 1 + a.length + bs.length, []⟩) ∧
    (∀ b bs : List Byte, t.toNat / 4 = c.tcIbr.toNat → IsRun c.tagEof b → Fits c (fieldValue (payload b 0) 6 b) →
      Unended c.tagEom bs →
      decodePacket c ⟨p, t :: (a ++ b ++ bs)⟩ =
        .err (.unexpectedEof (p + 1 + a.length + b.length + bs.length))
          ⟨p + 1 + a.length + b.length + bs.length, []⟩)) ∧
  ∀ (c : Cfg) (p : Nat) (t : Byte) (bs : List Byte) (tc : Tcode), c.wf = true → tc ∈ c.tcOther →
    t.toNat / 4 = tc.toNat → c.unhandledPolicy = .skipToEom → t.toNat % 4 ≠ c.tagEom.toNat → Unended c.tagEom bs →
    decodePacket c ⟨p, t :: bs⟩ = .err (.unexpectedEof (p + 1 + bs.length)) ⟨p + 1 + bs.length, []⟩

/-- R92, R105: decoding undoes encoding, for every well-formed packet and every legal configuration, whatever follows in
the stream. Where `0b00` is a terminator, and for the payload of a packet without fields, the encoding is the model's
(assumption 5). -/
def Obligations.DecodeUndoesEncode : Prop :=
  ∀ (c : Cfg) (i : Instr) (p : Nat) (rest : List Byte), c.wf = true → i.wf c = true →
    decodePacket c ⟨p, encode c i ++ rest⟩ = .ok (.row i) ⟨p + (encode c i).length, rest⟩

/-- The vectors K4, K8, K15, K19 and K20 of 95_test_vectors.md, and for each other row of the opcode table a word of ours: a
first byte of rule R75 (its Tcode with a tag we chose), and where that tag is `0b00` one byte of payload 0 tagged `TAG_EOM`.
This is about the default configuration alone, whose marker is the model's choice (assumption 2) and whose tags and Tcodes
are presumed (assumption 14). -/
def Obligations.SampleWordsDecode : Prop :=
  decodePacket Cfg.default ⟨0, [0x24, 0x54, 0x00, 0x21, 0x03]⟩ = .ok (.row (.sync 5 0x801 0)) ⟨5, []⟩ ∧
  decodePacket Cfg.default ⟨0, [0x0C, 0x04, 0x09, 0x07]⟩ = .ok (.row (.dbr 129 1)) ⟨4, []⟩ ∧
  decodePacket Cfg.default ⟨0, [0x10, 0x84, 0x05, 0x05, 0x17]⟩ = .ok (.row (.ibr .exception 17 1 5)) ⟨5, []⟩ ∧
  decodePacket Cfg.default ⟨0, [0x84, 0xC4, 0x05, 0x03]⟩ = .ok (.row (.corr 3 17 0)) ⟨4, []⟩ ∧
  decodePacket Cfg.default ⟨0, [0x08, 0x41, 0x03]⟩ = .ok (.row .other2) ⟨3, []⟩ ∧
  decodePacket Cfg.default ⟨0, [0x23]⟩ = .ok (.row .other8) ⟨1, []⟩ ∧
  decodePacket Cfg.default ⟨0, [0x2C, 0x03]⟩ = .ok (.row .other11) ⟨2, []⟩ ∧
  decodePacket Cfg.default ⟨0, [0x30, 0x03]⟩ = .ok (.row .other12) ⟨2, []⟩ ∧
  decodePacket Cfg.default ⟨0, [0x6C, 0x03]⟩ = .ok (.row .other27) ⟨2, []⟩ ∧
  decodePacket Cfg.default ⟨0, [0x70, 0x03]⟩ = .ok (.row .other28) ⟨2, []⟩ ∧
  decodePacket Cfg.default ⟨0, [0x74, 0x03]⟩ = .ok (.row .other29) ⟨2, []⟩

/-! ### Operand forms and the Index -/

/-- R90: `ParseOffset` accepts exactly the grammar, with its value and its range. -/
def Obligations.ParseOffsetIsItsGrammar : Prop :=
  ∀ (s : Text) (v : Int), parseOffset s = some v ↔
    -2 ^ 63 ≤ v ∧ v ≤ 2 ^ 63 - 1 ∧
      ((∃ n : Nat, Unsigned s n ∧ v = n) ∨ ∃ (t : Text) (n : Nat), s = '-' :: t ∧ Unsigned t n ∧ v = -(n : Int))

/-- R91: only the last comma-separated token counts, and it is parsed without the spaces and tabs around it. -/
def Obligations.OperandOffsetReadsTheLastToken : Prop :=
  ∀ pre l tok r : Text, ',' ∉ l ++ tok ++ r → (∀ ch ∈ l ++ r, Blank ch) →
    (∀ ch, tok.head? = some ch → ¬ Blank ch) → (∀ ch, tok.getLast? = some ch → ¬ Blank ch) →
    operandOffset (l ++ tok ++ r) = parseOffset tok ∧
      operandOffset (pre ++ ',' :: (l ++ tok ++ r)) = parseOffset tok

/-- R86: `unscale` doubles modulo `2^W`; its result is even, the top bit is lost, and it is injective below
`2^(W-1)`. -/
def Obligations.UnscaleDoubles : Prop :=
  (∀ v : Word, (unscale v).toNat = 2 * v.toNat % 2 ^ 64 ∧ (unscale v).toNat % 2 = 0) ∧
  (∀ v : Word, unscale (v + BitVec.ofNat 64 (2 ^ 63)) = unscale v) ∧
  ∀ v w : Word, v.toNat < 2 ^ 63 → w.toNat < 2 ^ 63 → unscale v = unscale w → v = w

/-- R53: in an Index of canonical form, a lookup gives the entry stored for exactly the address, or a miss. -/
def Obligations.LookupIsByExactAddress : Prop :=
  ∀ (x : Index) (a : Word), Index.wf x = true →
    (∀ e : Entry, x.lookup a = some e ↔ (a.toNat, e) ∈ x) ∧
    (x.lookup a = none ↔ ∀ e : Entry, (a.toNat, e) ∉ x)

/-! ### Packets -/

/-- R150 with R151 and R152: where the next step reads a packet, and the bytes at the read pointer decode to an
instruction, the step is `exec` of it, after the read pointer has moved past its bytes. -/
def Obligations.StepRunsTheDecodedInstruction : Prop :=
  ∀ (s : State) (i : Instr) (r : Reader), s.cfg.wf = true →
    s.phase = .init ∨ (s.phase = .running ∧ s.ctl = .idle ∧ s.pos ≠ s.trace.length) →
    decodePacket s.cfg ⟨s.pos, s.trace.drop s.pos⟩ = .ok (.row i) r →
    step s = exec i { s with pktStart := s.pos, pos := r.pos }

/-- R151: `InitStep` in full. -/
def Obligations.InitStepTakesOneSync : Prop :=
  ∀ s : State, s.cfg.wf = true → s.phase = .init →
    (∀ e r, readAt s = .err e r → step s = .next (failedAs (.decode e) s.packetsProcessed (consumedTo r.pos s))) ∧
    (∀ m a t r, readAt s = .ok (.row (.sync m a t)) r →
      step s = .next { accounted (Instr.sync m a t).packet (consumedTo r.pos s) with
        currentPc := a <<< 1, lastAbsoluteAddress := a <<< 1, phase := .running }) ∧
    (∀ x r, readAt s = .ok x r → x.packet.kind ≠ .sync →
      step s = .next (failedAs (.expectedSync x.packet.kind) s.packetsProcessed
        (accounted x.packet (consumedTo r.pos s))))

/-- R152, R160: `RunStep` in full, with `Ignore` for every kind but DBR, IBR and CORR. -/
def Obligations.RunStepHandlesEveryKind : Prop :=
  ∀ s : State, s.cfg.wf = true → s.phase = .running → s.ctl = .idle →
    (s.pos = s.trace.length → step s = .next { s with endReason := .endOfStream, phase := .terminal }) ∧
    (s.pos ≠ s.trace.length →
      (∀ e r, readAt s = .err e r → step s = .next (failedAs (.decode e) s.packetsProcessed (consumedTo r.pos s))) ∧
      (∀ t r, readAt s = .ok (.row (.dbr 0 t)) r →
        step s = .next (failedAs .emptyDirectBranch s.packetsProcessed
          (accounted (Instr.dbr 0 t).packet (consumedTo r.pos s)))) ∧
      (∀ n t r, readAt s = .ok (.row (.dbr n t)) r → n ≠ 0 →
        step s = .next { accounted (Instr.dbr n t).packet (consumedTo r.pos s) with
          remaining := n, lastEntry := none, ctl := .walkDirect }) ∧
      (∀ b n d t r, readAt s = .ok (.row (.ibr b n d t)) r →
        step s = .next { accounted (Instr.ibr b n d t).packet (consumedTo r.pos s) with
          remaining := n, lastEntry := none, ctl := .walkIndirect }) ∧
      (∀ v n t r, readAt s = .ok (.row (.corr v n t)) r →
        step s = .next { accounted (Instr.corr v n t).packet (consumedTo r.pos s) with
          remaining := n, lastEntry := none, ctl := .walkCorr }) ∧
      (∀ x r, readAt s = .ok x r → (x.packet.kind = .sync ∨ ∃ tc, x.packet.kind = .other tc) →
        step s = .next { consumedTo r.pos s with
          pkt := x.packet, packetsProcessed := s.packetsProcessed + 1,
          events := s.events ++ [.decoded x.packet, .ignored x.packet.kind] }))

/-- R128: a failed decode leaves `pkt` and `events` as they were, keeps the bytes it consumed, and is attributed to the
packet being decoded. -/
def Obligations.FailedDecodeReturnsNoPacket : Prop :=
  ∀ (s : State) (e : DecodeError) (r : Reader), s.cfg.wf = true →
    s.phase = .init ∨ (s.phase = .running ∧ s.ctl = .idle ∧ s.pos ≠ s.trace.length) → readAt s = .err e r →
    ∃ t, step s = .next t ∧ t.pkt = s.pkt ∧ t.events = s.events ∧ t.records = s.records ∧ t.pos = r.pos ∧
      t.packetsProcessed = s.packetsProcessed ∧ t.phase = .failed ∧
      t.fail = some ⟨.decode e, s.packetsProcessed, s.pos⟩ ∧ s.pos ≤ r.pos

/-- R151, R86: SYNC in `INIT` completes: the trace's entry point, and nothing else but the packet's own bookkeeping. -/
def Obligations.SyncSetsTheEntryPoint : Prop :=
  ∀ (m : BitVec 4) (a t : Word) (s : State), s.phase = .init →
    exec (.sync m a t) s = .next { s with
      pkt := ⟨.sync, m, .indirect, 0, 0, a, 0, t⟩
      events := s.events ++ [.decoded ⟨.sync, m, .indirect, 0, 0, a, 0, t⟩]
      packetsProcessed := s.packetsProcessed + 1
      currentPc := a <<< 1
      lastAbsoluteAddress := a <<< 1
      phase := .running }

/-- R160: SYNC while `RUNNING` completes and is ignored: it does not re-establish the PC. -/
def Obligations.SyncIsIgnoredWhileRunning : Prop :=
  ∀ (m : BitVec 4) (a t : Word) (s : State), s.phase = .running → s.ctl = .idle →
    exec (.sync m a t) s = .next { s with
      pkt := ⟨.sync, m, .indirect, 0, 0, a, 0, t⟩
      events := s.events ++ [.decoded ⟨.sync, m, .indirect, 0, 0, a, 0, t⟩, .ignored .sync]
      packetsProcessed := s.packetsProcessed + 1 }

/-- R152: DBR (with a nonzero count), IBR and CORR while `RUNNING` complete and load their walks. -/
def Obligations.CountedPacketsLoadTheirWalk : Prop :=
  ∀ s : State, s.phase = .running → s.ctl = .idle →
    (∀ n t : Word, n ≠ 0 → exec (.dbr n t) s = .next { s with
      pkt := ⟨.dbr, 0, .indirect, 0, n, 0, 0, t⟩
      events := s.events ++ [.decoded ⟨.dbr, 0, .indirect, 0, n, 0, 0, t⟩]
      packetsProcessed := s.packetsProcessed + 1
      remaining := n
      lastEntry := none
      ctl := .walkDirect }) ∧
    (∀ (b : BranchType) (n d t : Word), exec (.ibr b n d t) s = .next { s with
      pkt := ⟨.ibr, 0, b, 0, n, 0, d, t⟩
      events := s.events ++ [.decoded ⟨.ibr, 0, b, 0, n, 0, d, t⟩]
      packetsProcessed := s.packetsProcessed + 1
      remaining := n
      lastEntry := none
      ctl := .walkIndirect }) ∧
    (∀ (v : BitVec 2) (n t : Word), exec (.corr v n t) s = .next { s with
      pkt := ⟨.corr, 0, .indirect, v, n, 0, 0, t⟩
      events := s.events ++ [.decoded ⟨.corr, 0, .indirect, v, n, 0, 0, t⟩]
      packetsProcessed := s.packetsProcessed + 1
      remaining := n
      lastEntry := none
      ctl := .walkCorr })

/-- R208: a DirectBranchCount packet of count 0 is counted and then raises `EmptyDirectBranch`. -/
def Obligations.EmptyDirectBranchIsRaised : Prop :=
  ∀ (t : Word) (s : State), s.phase = .running → s.ctl = .idle →
    exec (.dbr 0 t) s = .next { s with
      pkt := ⟨.dbr, 0, .indirect, 0, 0, 0, 0, t⟩
      events := s.events ++ [.decoded ⟨.dbr, 0, .indirect, 0, 0, 0, 0, t⟩]
      packetsProcessed := s.packetsProcessed + 1
      fail := some ⟨.emptyDirectBranch, s.packetsProcessed, s.pktStart⟩
      phase := .failed }

/-- R160: each of the seven recognized-but-unhandled kinds completes while `RUNNING` and is ignored. -/
def Obligations.OtherKindsAreIgnored : Prop :=
  ∀ (i : Instr) (tc : Tcode) (s : State),
    (i, tc) ∈ [(Instr.other2, (2 : Tcode)), (.other8, 8), (.other11, 11), (.other12, 12), (.other27, 27),
      (.other28, 28), (.other29, 29)] → s.phase = .running → s.ctl = .idle →
    exec i s = .next { s with
      pkt := ⟨.other tc, 0, .indirect, 0, 0, 0, 0, 0⟩
      events := s.events ++ [.decoded ⟨.other tc, 0, .indirect, 0, 0, 0, 0, 0⟩, .ignored (.other tc)]
      packetsProcessed := s.packetsProcessed + 1 }

/-- R206: any other packet first in the trace is counted and then raises `ExpectedSync`; nothing of its effect takes
place. -/
def Obligations.FirstPacketMustBeSync : Prop :=
  ∀ (i : Instr) (s : State), (∀ m a t, i ≠ .sync m a t) → s.phase = .init →
    exec i s = .next { s with
      pkt := i.packet
      events := s.events ++ [.decoded i.packet]
      packetsProcessed := s.packetsProcessed + 1
      fail := some ⟨.expectedSync i.packet.kind, s.packetsProcessed, s.pktStart⟩
      phase := .failed }

/-- R61, R150: no packet is handled in a final state or before the walk of the packet before it has ended. The named
stops are the model's. -/
def Obligations.PacketsWaitTheirTurn : Prop :=
  ∀ (i : Instr) (s : State),
    (s.phase = .terminal → exec i s = .fault .runEnded) ∧ (s.phase = .failed → exec i s = .fault .runFailed) ∧
    (s.phase = .running → s.ctl ≠ .idle → exec i s = .fault .walkInProgress)

/-! ### Visits and resolutions -/

/-- R204. -/
def Obligations.MissingInstructionIsRaised : Prop :=
  ∀ s : State, Visiting s → s.index.lookup s.currentPc = none →
    step s = .next (failedAs (.missingInstruction s.currentPc) (s.packetsProcessed - 1) s)

/-- R209: before anything of the visit is written. -/
def Obligations.BadInstructionLengthIsRaised : Prop :=
  ∀ (s : State) (e : Entry), Visiting s → s.index.lookup s.currentPc = some e → ¬ LegalLength e →
    step s = .next (failedAs (.badInstructionLength s.currentPc e.len) (s.packetsProcessed - 1) s)

/-- R207: the record of the visit has been emitted. -/
def Obligations.ParcelUnderflowIsRaised : Prop :=
  ∀ (s : State) (e : Entry), Visiting s → s.index.lookup s.currentPc = some e → LegalLength e →
    s.remaining.toNat < e.len / 2 →
    step s = .next (failedAs (.parcelUnderflow s.currentPc (e.len / 2) s.remaining) (s.packetsProcessed - 1)
      (visited e s))

/-- R154, R155: a visit of a direct or a correlation walk completes by length, whatever the mnemonic. -/
def Obligations.VisitByLengthAdvances : Prop :=
  ∀ (s : State) (e : Entry), Visiting s → s.ctl = .walkDirect ∨ s.ctl = .walkCorr →
    s.index.lookup s.currentPc = some e → LegalLength e → e.len / 2 ≤ s.remaining.toNat →
    step s = .next { visited e s with
      remaining := remainingAfter e s, currentPc := s.currentPc + BitVec.ofNat 64 e.len }

/-- R154, R157, R161, R162: a visit of an indirect walk follows a jump by its operand and steps any other instruction by
its length. -/
def Obligations.VisitOfIndirectWalkFollowsJumps : Prop :=
  ∀ (s : State) (e : Entry), Visiting s → s.ctl = .walkIndirect → s.index.lookup s.currentPc = some e →
    LegalLength e → e.len / 2 ≤ s.remaining.toNat →
    (e.mnem ∉ s.cfg.jumpMnemonics →
      step s = .next { visited e s with
        remaining := remainingAfter e s, currentPc := s.currentPc + BitVec.ofNat 64 e.len }) ∧
    (∀ off : Int, e.mnem ∈ s.cfg.jumpMnemonics → operandOffset e.ops = some off →
      step s = .next { visited e s with
        remaining := remainingAfter e s, currentPc := s.currentPc + BitVec.ofInt 64 off })

/-- R205: the two places that raise `UnsupportedBranchOperand`. -/
def Obligations.UnsupportedBranchOperandIsRaised : Prop :=
  (∀ (s : State) (e : Entry), s.cfg.wf = true → s.phase = .running → s.ctl = .walkDirect → s.remaining = 0 →
    s.lastEntry = some e → operandOffset e.ops = none →
    step s = .next (failedAs (.unsupportedBranchOperand s.lastVisited e.ops) (s.packetsProcessed - 1) s)) ∧
  ∀ (s : State) (e : Entry), Visiting s → s.ctl = .walkIndirect → s.index.lookup s.currentPc = some e →
    LegalLength e → e.len / 2 ≤ s.remaining.toNat → e.mnem ∈ s.cfg.jumpMnemonics → operandOffset e.ops = none →
    step s = .next (failedAs (.unsupportedBranchOperand s.currentPc e.ops) (s.packetsProcessed - 1)
      { visited e s with remaining := remainingAfter e s })

/-- R156: the direct target is relative to the last visited instruction's own address. -/
def Obligations.DirectBranchResolves : Prop :=
  ∀ (s : State) (e : Entry) (off : Int), s.cfg.wf = true → s.phase = .running → s.ctl = .walkDirect →
    s.remaining = 0 → s.lastEntry = some e → operandOffset e.ops = some off →
    step s = .next { s with currentPc := s.lastVisited + BitVec.ofInt 64 off, ctl := .idle }

/-- R158, R87: the indirect target, from the scaled differential address and the unscaled last absolute address. -/
def Obligations.IndirectBranchResolves : Prop :=
  ∀ s : State, s.cfg.wf = true → s.phase = .running → s.ctl = .walkIndirect → s.remaining = 0 →
    step s = .next { s with
      currentPc := (s.pkt.differentialAddress ^^^ s.lastAbsoluteAddress) <<< 1
      lastAbsoluteAddress := (s.pkt.differentialAddress ^^^ s.lastAbsoluteAddress) <<< 1
      ctl := .idle }

/-- R159: the end of a TraceCorrelation walk ends the trace. -/
def Obligations.CorrelationEndsTheTrace : Prop :=
  ∀ s : State, s.cfg.wf = true → s.phase = .running → s.ctl = .walkCorr → s.remaining = 0 →
    step s = .next { s with endReason := .correlation, phase := .terminal, ctl := .idle }

/-! ### Reset, status and configuration -/

/-- R230: reset puts every register at its reset value, whatever trace, Index and configuration the host has placed. -/
def Obligations.ResetValues : Prop :=
  ∀ (c : Cfg) (x : Index) (t : List Byte), ∃ s, s = State.launch c x t ∧
    s.phase = .init ∧ s.ctl = .idle ∧ s.pos = 0 ∧ s.pktStart = 0 ∧ s.packetsProcessed = 0 ∧ s.currentPc = 0 ∧
    s.lastAbsoluteAddress = 0 ∧ s.pkt = ⟨.none, 0, .indirect, 0, 0, 0, 0, 0⟩ ∧ s.remaining = 0 ∧
    s.lastVisited = 0 ∧ s.lastEntry = none ∧ s.endReason = .none ∧ s.fail = none ∧ s.records = [] ∧ s.events = [] ∧
    State.reset = State.launch State.reset.cfg State.reset.index State.reset.trace

/-- R150, R163, R213: a final state has no step. That the model names the stop is the model's. -/
def Obligations.FinalStatesHaveNoStep : Prop :=
  ∀ s : State, s.cfg.wf = true →
    (s.phase = .terminal → step s = .fault .runEnded) ∧ (s.phase = .failed → step s = .fault .runFailed)

/-- R6: a configuration that violates a constraint is refused, and one that meets them all is never refused. R6's `TC_OTHER`
is a set; that a list which names one member twice is refused as well is the model's choice (assumption 15). -/
def Obligations.BadConfigurationIsRefused : Prop :=
  ∀ s : State,
    ((s.cfg.tagEof = s.cfg.tagEom ∨
        ¬ ([s.cfg.tcSync, s.cfg.tcDbr, s.cfg.tcIbr, s.cfg.tcCorr] ++ s.cfg.tcOther).Nodup) →
      step s = .refused .badConfig) ∧
    (s.cfg.tagEof ≠ s.cfg.tagEom →
      ([s.cfg.tcSync, s.cfg.tcDbr, s.cfg.tcIbr, s.cfg.tcCorr] ++ s.cfg.tcOther).Nodup → ∀ r, step s ≠ .refused r)

/-- R200: the code of each cause, read off an error record. -/
def Obligations.ErrorCodes : Prop :=
  ∀ (n : BitVec 64) (o : Nat),
    (∀ p, (⟨.decode (.unexpectedEof p), n, o⟩ : FailRecord).code = 1) ∧
    (∀ m, (⟨.decode (.syncMarkerMismatch m), n, o⟩ : FailRecord).code = 2) ∧
    (∀ t, (⟨.decode (.invalidTcode t), n, o⟩ : FailRecord).code = 3) ∧
    (∀ a, (⟨.missingInstruction a, n, o⟩ : FailRecord).code = 4) ∧
    (∀ a x, (⟨.unsupportedBranchOperand a x, n, o⟩ : FailRecord).code = 5) ∧
    (∀ k, (⟨.expectedSync k, n, o⟩ : FailRecord).code = 6) ∧
    (∀ a p r, (⟨.parcelUnderflow a p r, n, o⟩ : FailRecord).code = 7) ∧
    (⟨.emptyDirectBranch, n, o⟩ : FailRecord).code = 8 ∧
    (∀ a l, (⟨.badInstructionLength a l, n, o⟩ : FailRecord).code = 9) ∧
    (∀ p, (⟨.decode (.fieldOverflow p), n, o⟩ : FailRecord).code = 10)

/-- R165: what a final state reports; a run that is not over reports nothing (R239). -/
def Obligations.StatusOfAFinalState : Prop :=
  ∀ s : State,
    (s.phase = .terminal →
      status s = some (.done s.packetsProcessed s.endReason s.currentPc s.lastAbsoluteAddress)) ∧
    (∀ f, s.phase = .failed → s.fail = some f → status s = some (.failed f)) ∧
    (s.phase = .init ∨ s.phase = .running → status s = none)

/-! ### The whole machine -/

/-- The invariant holds when a run is launched, with any trace, any configuration and any Index of canonical form. -/
def Obligations.InvariantAtLaunch : Prop :=
  ∀ (c : Cfg) (x : Index) (t : List Byte), Index.wf x = true → (State.launch c x t).Inv

/-- Every step keeps the invariant. -/
def Obligations.InvariantIsKept : Prop :=
  ∀ s t : State, s.Inv → step s = .next t → t.Inv

/-- R150: in `INIT` and in `RUNNING` a step is enabled: no state that the invariant allows is stuck or refused. -/
def Obligations.UnfinishedRunsTakeAStep : Prop :=
  ∀ s : State, s.Inv → s.cfg.wf = true → s.phase = .init ∨ s.phase = .running → ∃ t, step s = .next t

/-- R33, R52, R54: no step changes the trace, the Index or the configuration, or moves `pos` backwards. -/
def Obligations.InputsAreReadOnly : Prop :=
  ∀ s t : State, step s = .next t →
    t.trace = s.trace ∧ t.index = s.index ∧ t.cfg = s.cfg ∧ s.pos ≤ t.pos ∧
    (t.pos ≠ s.pos → s.ctl = .idle ∨ s.phase = .init)

/-- R32, R55, R56: the outputs are append-only and never read: whatever they hold, the step is the same and appends the
same. -/
def Obligations.OutputsAreAppendedAndNeverRead : Prop :=
  ∀ s t : State, step s = .next t → ∃ (rs : List Record) (es : List Event),
    t.records = s.records ++ rs ∧ t.events = s.events ++ es ∧
    ∀ (rs0 : List Record) (es0 : List Event),
      step { s with records := rs0, events := es0 } = .next { t with records := rs0 ++ rs, events := es0 ++ es }

/-- R166: a visit of an entry of legal length emits exactly one record, its address and entry, and no other step emits
any. -/
def Obligations.RecordsAreTheVisits : Prop :=
  ∀ s t : State, step s = .next t →
    (∀ e, Visiting s → s.index.lookup s.currentPc = some e → LegalLength e →
      t.records = s.records ++ [⟨s.currentPc, e⟩]) ∧
    (¬ (Visiting s ∧ ∃ e, s.index.lookup s.currentPc = some e ∧ LegalLength e) → t.records = s.records)

/-- R84, R85, R217: the timestamp, the branch type and the event code are only forwarded: neither the packet that
carries them nor any later step does anything else with them. -/
def Obligations.ForwardedDataDoNotSteer : Prop :=
  (∀ s u : State, withoutForwarded s = withoutForwarded u → SameReplay (step s) (step u)) ∧
  ∀ s u : State, withoutForwarded s = withoutForwarded u →
    (∀ m a t t', SameReplay (exec (.sync m a t) s) (exec (.sync m a t') u)) ∧
    (∀ n t t', SameReplay (exec (.dbr n t) s) (exec (.dbr n t') u)) ∧
    (∀ b b' n d t t', SameReplay (exec (.ibr b n d t) s) (exec (.ibr b' n d t') u)) ∧
    (∀ v v' n t t', SameReplay (exec (.corr v n t) s) (exec (.corr v' n t') u))

/-- R26: `last_absolute_address` is written only by Init and by an indirect resolution, and always with the new program
counter. -/
def Obligations.WritersOfLastAbsoluteAddress : Prop :=
  ∀ s t : State, step s = .next t → t.lastAbsoluteAddress ≠ s.lastAbsoluteAddress →
    t.lastAbsoluteAddress = t.currentPc ∧
    ((s.phase = .init ∧ t.phase = .running ∧ t.pkt.kind = .sync ∧ t.currentPc = t.pkt.fullAddress <<< 1) ∨
      (s.phase = .running ∧ s.ctl = .walkIndirect ∧ s.remaining = 0 ∧
        t.currentPc = (s.pkt.differentialAddress ^^^ s.lastAbsoluteAddress) <<< 1))

/-- R25: `current_pc` is written only by Init, by visits and by the two resolutions; no other packet changes it. -/
def Obligations.WritersOfCurrentPc : Prop :=
  ∀ s t : State, step s = .next t → t.currentPc ≠ s.currentPc →
    (s.phase = .init ∧ t.phase = .running ∧ t.pkt.kind = .sync) ∨ Visiting s ∨
    (s.phase = .running ∧ s.remaining = 0 ∧ (s.ctl = .walkDirect ∨ s.ctl = .walkIndirect))

/-- R215: only the end of a TraceCorrelation walk, the end of the stream and an error stop the machine, and `INIT` is
left for good. -/
def Obligations.WhatStopsTheMachine : Prop :=
  ∀ s t : State, s.Inv → step s = .next t → t.phase ≠ .init ∧
    (t.final →
      (t.endReason = .correlation ∧ t.fail = none ∧ s.ctl = .walkCorr ∧ s.remaining = 0) ∨
      (t.endReason = .endOfStream ∧ t.fail = none ∧ s.phase = .running ∧ s.ctl = .idle ∧
        s.pos = s.trace.length) ∨
      (t.phase = .failed ∧ ∃ f, t.fail = some f))

/-- R211: an error is attributed to exactly one packet: the one being decoded, which is then not in the outputs, or the
one being replayed, the last one counted. -/
def Obligations.ErrorsAreAttributed : Prop :=
  ∀ s t : State, step s = .next t → t.phase = .failed →
    ∃ (e : Err) (n : BitVec 64), t.fail = some ⟨e, n, t.pktStart⟩ ∧
      (((∃ d, e = .decode d) ∧ n = t.packetsProcessed ∧ t.pktStart = s.pos ∧ t.pkt = s.pkt ∧ t.events = s.events) ∨
        ((∀ d, e ≠ .decode d) ∧ n = t.packetsProcessed - 1 ∧
          (t.events = s.events ∨ t.events = s.events ++ [.decoded t.pkt])))

/-- R237: every run ends, within `L + 1 + S + P` steps, `P` the packets decoded (at most `L`) and `S` the sum of their
counts. -/
def Obligations.EveryRunEnds : Prop :=
  ∀ (c : Cfg) (x : Index) (t : List Byte), c.wf = true → Index.wf x = true →
    ∃ (k : Nat) (s : State), Sys2Proof.core.run k (State.launch c x t) = .next s ∧ s.final ∧
      decodedCount s.events ≤ t.length ∧
      k ≤ t.length + 1 + instructionCountSum s.events + decodedCount s.events

/-- R167: a direct walk either fails, or visits, by length, exactly the instructions whose parcels sum to its count and
resolves the branch at the last of them. -/
def Obligations.DirectWalkCoversItsCount : Prop :=
  ∀ s : State, s.cfg.wf = true → s.phase = .running → s.ctl = .walkDirect → s.remaining ≠ 0 →
    ∃ (k : Nat) (t : State), k ≤ s.remaining.toNat + 1 ∧ Sys2Proof.core.run k s = .next t ∧
      (t.phase = .failed ∨
        ∃ (rs : List Record) (r : Record) (z : Word) (off : Int),
          IsWalk nextByLength s.index s.currentPc (rs ++ [r]) z ∧
          parcelSum (rs ++ [r]) = some s.remaining.toNat ∧ operandOffset r.entry.ops = some off ∧
          t = { walked (rs ++ [r]) (r.address + BitVec.ofInt 64 off) s with ctl := .idle })

/-- R155 to R159: a walk whose instructions the Index holds, and whose parcels sum to its count, runs to its end, with
one record per instruction, and resolves: a direct walk at its last instruction, an indirect one at the differential
address, a correlation walk in `TERMINAL`. -/
def Obligations.WalksRunToTheirEnd : Prop :=
  ∀ (s : State) (rs : List Record) (z : Word), s.cfg.wf = true → s.phase = .running →
    parcelSum rs = some s.remaining.toNat →
    (∀ r off, s.ctl = .walkDirect → IsWalk nextByLength s.index s.currentPc rs z → rs.getLast? = some r →
      operandOffset r.entry.ops = some off →
      Sys2Proof.core.run (rs.length + 1) s =
        .next { walked rs (r.address + BitVec.ofInt 64 off) s with ctl := .idle }) ∧
    (s.ctl = .walkIndirect → IsWalk (jumpAwareNext s.cfg) s.index s.currentPc rs z →
      Sys2Proof.core.run (rs.length + 1) s =
        .next { walked rs ((s.pkt.differentialAddress ^^^ s.lastAbsoluteAddress) <<< 1) s with
          lastAbsoluteAddress := (s.pkt.differentialAddress ^^^ s.lastAbsoluteAddress) <<< 1, ctl := .idle }) ∧
    (s.ctl = .walkCorr → IsWalk nextByLength s.index s.currentPc rs z →
      Sys2Proof.core.run (rs.length + 1) s =
        .next { walked rs z s with endReason := .correlation, phase := .terminal, ctl := .idle })
end

