-- ==== Sys2Proof/Laws/Config.lean ====
section
/-! SUPPORT. What a configuration that meets the constraints of rule R6 gives. -/

namespace Sys2Proof

/-- The constraints as propositions. -/
theorem Cfg.wf_iff (c : Cfg) :
    c.wf = true ↔ c.tagEof ≠ c.tagEom ∧ ([c.tcSync, c.tcDbr, c.tcIbr, c.tcCorr] ++ c.tcOther).Nodup := by
  have : c.wf = (c.tagEof != c.tagEom && decide c.tcodes.Nodup) := rfl
  rw [this, Bool.and_eq_true, bne_iff_ne, decide_eq_true_iff]
  exact Iff.rfl

/-- The defaults of rule R6 meet them. -/
theorem Cfg.default_wf : Cfg.default.wf = true := by decide

/-- Each Tcode has at most one kind, in the order in which `DecodePacket` asks (rule R120). -/
theorem Cfg.wf_distinct {c : Cfg} (h : c.wf = true) :
    c.tcDbr ≠ c.tcSync ∧ c.tcIbr ≠ c.tcSync ∧ c.tcIbr ≠ c.tcDbr ∧ c.tcCorr ≠ c.tcSync ∧ c.tcCorr ≠ c.tcDbr ∧
      c.tcCorr ≠ c.tcIbr ∧ ∀ t ∈ c.tcOther, t ≠ c.tcSync ∧ t ≠ c.tcDbr ∧ t ≠ c.tcIbr ∧ t ≠ c.tcCorr := by
  have h := ((Cfg.wf_iff c).1 h).2
  simp only [List.cons_append, List.nil_append, List.nodup_cons, List.mem_cons, not_or] at h
  obtain ⟨⟨h1, h2, h3, h4⟩, ⟨h5, h6, h7⟩, ⟨h8, h9⟩, h10, -⟩ := h
  refine ⟨Ne.symm h1, Ne.symm h2, Ne.symm h5, Ne.symm h3, Ne.symm h6, Ne.symm h8, fun t ht => ⟨?_, ?_, ?_, ?_⟩⟩ <;>
    rintro rfl
  · exact h4 ht
  · exact h7 ht
  · exact h9 ht
  · exact h10 ht

end Sys2Proof
end

