-- ==== Sys2Proof/Laws/Index.lean ====
section
/-! SUPPORT. The laws of the Instruction Index: lookup after insert, and every operation keeps the canonical form. -/

namespace Sys2Proof.Machine

/-- The canonical form as two facts about the list. -/
theorem Index.wf_iff (x : Index) :
    Index.wf x = true ↔ x.Pairwise (fun a b => a.1 < b.1) ∧ ∀ a ∈ x, a.1 < 2 ^ 64 := by
  simp [Index.wf]

theorem Index.nil_wf : Index.wf [] = true := by decide

theorem Index.mem_insert {k : Nat} {e : Entry} {x : Index} {a : Nat × Entry}
    (h : a ∈ Index.insert k e x) : a = (k, e) ∨ a ∈ x := by
  induction x with
  | nil => simpa [Index.insert] using h
  | cons b x ih =>
    obtain ⟨l, f⟩ := b
    simp only [Index.insert] at h
    split at h
    · simpa using h
    · split at h
      · rcases List.mem_cons.1 h with h | h
        · exact .inl h
        · exact .inr (List.mem_cons_of_mem _ h)
      · rcases List.mem_cons.1 h with h | h
        · exact .inr (h ▸ List.mem_cons_self)
        · exact (ih h).imp_right (List.mem_cons_of_mem _)

theorem Index.insert_wf {x : Index} (k : Nat) (e : Entry) (hk : k < 2 ^ 64) (hx : Index.wf x = true) :
    Index.wf (Index.insert k e x) = true := by
  rw [Index.wf_iff] at hx ⊢
  obtain ⟨hs, hb⟩ := hx
  refine ⟨?_, fun a ha => ?_⟩
  · clear hb
    induction x with
    | nil => simp [Index.insert]
    | cons b x ih =>
      obtain ⟨l, f⟩ := b
      obtain ⟨hl, hx⟩ := List.pairwise_cons.1 hs
      simp only [Index.insert]
      split
      · rename_i hkl
        refine List.pairwise_cons.2 ⟨fun a ha => ?_, hs⟩
        rcases List.mem_cons.1 ha with rfl | ha
        · exact hkl
        · exact hkl.trans (hl a ha)
      · split
        · rename_i hkl
          exact List.pairwise_cons.2 ⟨fun a ha => hkl ▸ hl a ha, hx⟩
        · rename_i h1 h2
          refine List.pairwise_cons.2 ⟨fun a ha => ?_, ih hx⟩
          rcases Index.mem_insert ha with rfl | ha
          · exact Nat.lt_of_le_of_ne (Nat.le_of_not_lt h1) (Ne.symm h2)
          · exact hl a ha
  · rcases Index.mem_insert ha with rfl | ha
    · exact hk
    · exact hb a ha

/-- An Index that the host builds from a list of entries is in the canonical form. -/
theorem Index.ofList_wf (es : List (Word × Entry)) : Index.wf (Index.ofList es) = true := by
  suffices h : ∀ x : Index, Index.wf x = true →
      Index.wf (es.foldl (fun x a => Index.insert a.1.toNat a.2 x) x) = true from h [] Index.nil_wf
  induction es with
  | nil => exact fun x hx => hx
  | cons a es ih => exact fun x hx => ih _ (Index.insert_wf _ _ a.1.isLt hx)

theorem Index.find_insert_same (k : Nat) (e : Entry) (x : Index) : (Index.insert k e x).find k = some e := by
  induction x with
  | nil => simp [Index.insert, Index.find]
  | cons b x ih =>
    obtain ⟨l, f⟩ := b
    simp only [Index.insert]
    split
    · simp [Index.find]
    · split
      · simp [Index.find]
      · rename_i h1 h2
        simp [Index.find, Ne.symm h2, ih]

theorem Index.find_insert_other {k j : Nat} (h : j ≠ k) (e : Entry) (x : Index) :
    (Index.insert k e x).find j = x.find j := by
  induction x with
  | nil => simp [Index.insert, Index.find, Ne.symm h]
  | cons b x ih =>
    obtain ⟨l, f⟩ := b
    simp only [Index.insert]
    split
    · simp [Index.find, Ne.symm h]
    · split
      · rename_i h1 h2
        subst h2
        simp [Index.find, Ne.symm h]
      · simp [Index.find, ih]

theorem State.reset_index_wf : State.reset.index.wf = true := by decide

end Sys2Proof.Machine
end

