-- ==== Sys2Proof/Laws/Reader.lean ====
section
/-! SUPPORT. The laws of the Bitfield Reader: the bit fields of a byte, what a read gives, and what it leaves. -/

namespace Sys2Proof

@[simp] theorem mdo_traceByte (p : BitVec 6) (t : Tag) : mdo (traceByte p t) = p := by
  revert p t; decide

@[simp] theorem mseo_traceByte (p : BitVec 6) (t : Tag) : mseo (traceByte p t) = t := by
  revert p t; decide

/-- Rule R70: the byte is its payload and its tag. -/
theorem traceByte_mdo_mseo (b : Byte) : traceByte (mdo b) (mseo b) = b := by
  revert b; decide

theorem mdo_toNat (b : Byte) : (mdo b).toNat = b.toNat / 4 := by revert b; decide

theorem mseo_toNat (b : Byte) : (mseo b).toNat = b.toNat % 4 := by revert b; decide

theorem bits76_toNat (b : Byte) : (bits76 b).toNat = b.toNat / 64 := by revert b; decide

theorem bits52_toNat (b : Byte) : (bits52 b).toNat = b.toNat / 4 % 16 := by revert b; decide

@[simp] theorem bits76_traceByte (f : BitVec 2) (v : BitVec 4) (t : Tag) : bits76 (traceByte (f ++ v) t) = f := by
  revert f v t; decide

@[simp] theorem bits52_traceByte (f : BitVec 2) (v : BitVec 4) (t : Tag) : bits52 (traceByte (f ++ v) t) = v := by
  revert f v t; decide

theorem continuationTag_ne (tag : Tag) : continuationTag tag ≠ tag := by
  revert tag; decide

@[simp] theorem branchTypeOfCode_code (b : BranchType) : branchTypeOfCode b.code = b := by
  cases b <;> decide

@[simp] theorem code_branchTypeOfCode (c : BitVec 2) : (branchTypeOfCode c).code = c := by
  revert c; decide

@[simp] theorem Read.ok_andThen {α β : Type} (a : α) (r : Reader) (f : α → Reader → Read β) :
    (Read.ok a r).andThen f = f a r := rfl

@[simp] theorem Read.err_andThen {α β : Type} (e : DecodeError) (r : Reader) (f : α → Reader → Read β) :
    (Read.err e r : Read α).andThen f = .err e r := rfl

/-- A sequence of two reads succeeds exactly when both do. -/
theorem Read.andThen_eq_ok {α β : Type} {x : Read α} {f : α → Reader → Read β} {b : β} {r : Reader} :
    x.andThen f = .ok b r ↔ ∃ a q, x = .ok a q ∧ f a q = .ok b r := by
  cases x <;> simp

/-- A sequence of two reads fails when the first does or the second one does after it. -/
theorem Read.andThen_eq_err {α β : Type} {x : Read α} {f : α → Reader → Read β} {e : DecodeError} {r : Reader} :
    x.andThen f = .err e r ↔ x = .err e r ∨ ∃ a q, x = .ok a q ∧ f a q = .err e r := by
  cases x <;> simp

@[simp] theorem readByte_cons (p : Nat) (b : Byte) (bs : List Byte) :
    readByte ⟨p, b :: bs⟩ = .ok b ⟨p + 1, bs⟩ := rfl

@[simp] theorem readByte_nil (p : Nat) : readByte ⟨p, []⟩ = .err (.unexpectedEof p) ⟨p, []⟩ := rfl

/-- Rule R101, forwards: bytes without the tag and then one with it are read as one run. -/
theorem readRunFrom_run {tag : Tag} (p : Nat) {xs : List Byte} (hx : ∀ x ∈ xs, mseo x ≠ tag) {b : Byte}
    (hb : mseo b = tag) (rest : List Byte) :
    readRunFrom tag p (xs ++ b :: rest) = .ok (xs ++ [b]) ⟨p + xs.length + 1, rest⟩ := by
  induction xs generalizing p with
  | nil => simp [readRunFrom, hb]
  | cons x xs ih =>
    have hxt := hx x List.mem_cons_self
    have := ih (p + 1) fun y hy => hx y (List.mem_cons_of_mem _ hy)
    simp [readRunFrom, hxt, this]
    omega

/-- Rule R101, forwards: with no terminator the read runs to the end of the stream. -/
theorem readRunFrom_eof {tag : Tag} (p : Nat) {xs : List Byte} (hx : ∀ x ∈ xs, mseo x ≠ tag) :
    readRunFrom tag p xs = .err (.unexpectedEof (p + xs.length)) ⟨p + xs.length, []⟩ := by
  induction xs generalizing p with
  | nil => simp [readRunFrom]
  | cons x xs ih =>
    have hxt := hx x List.mem_cons_self
    have := ih (p + 1) fun y hy => hx y (List.mem_cons_of_mem _ hy)
    simp [readRunFrom, hxt, this]
    omega

/-- The bytes up to the first terminator, or no terminator at all. -/
theorem run_or_none (tag : Tag) (bs : List Byte) :
    (∃ xs b rest, bs = xs ++ b :: rest ∧ mseo b = tag ∧ ∀ x ∈ xs, mseo x ≠ tag) ∨ ∀ x ∈ bs, mseo x ≠ tag := by
  induction bs with
  | nil => simp
  | cons b bs ih =>
    by_cases hb : mseo b = tag
    · exact .inl ⟨[], b, bs, rfl, hb, by simp⟩
    · rcases ih with ⟨xs, d, rest, rfl, hd, hx⟩ | h
      · refine .inl ⟨b :: xs, d, rest, rfl, hd, fun x hm => ?_⟩
        rcases List.mem_cons.1 hm with rfl | hm
        · exact hb
        · exact hx x hm
      · refine .inr fun x hm => ?_
        rcases List.mem_cons.1 hm with rfl | hm
        · exact hb
        · exact h x hm

/-- Rule R101: everything a field read can give. -/
theorem readFieldUntil_cases (tag : Tag) (r : Reader) :
    (∃ xs b rest, r.rest = xs ++ b :: rest ∧ mseo b = tag ∧ (∀ x ∈ xs, mseo x ≠ tag) ∧
      readFieldUntil tag r = .ok (xs ++ [b]) ⟨r.pos + xs.length + 1, rest⟩) ∨
    ((∀ x ∈ r.rest, mseo x ≠ tag) ∧
      readFieldUntil tag r =
        .err (.unexpectedEof (r.pos + r.rest.length)) ⟨r.pos + r.rest.length, []⟩) := by
  rcases run_or_none tag r.rest with ⟨xs, b, rest, h, hb, hx⟩ | h
  · exact .inl ⟨xs, b, rest, h, hb, hx, by rw [readFieldUntil, h, readRunFrom_run _ hx hb]⟩
  · exact .inr ⟨h, by rw [readFieldUntil, readRunFrom_eof _ h]⟩

/-- Rule R102: everything `PackK` can give. -/
theorem packK_cases (c : Cfg) (v0 k : Nat) (run : List Byte) (r : Reader) :
    (packK c v0 k run r = .ok (BitVec.ofNat 64 (v0 + groupSum k run.tail)) r ∧
      (c.fieldOverflow = .truncate ∨ v0 + groupSum k run.tail < 2 ^ 64)) ∨
    (packK c v0 k run r = .err (.fieldOverflow r.pos) r ∧
      c.fieldOverflow = .fault ∧ 2 ^ 64 ≤ v0 + groupSum k run.tail) := by
  unfold packK
  cases h : c.fieldOverflow
  · by_cases h2 : 2 ^ 64 ≤ v0 + groupSum k run.tail
    · exact .inr ⟨by simp only [if_pos h2], rfl, h2⟩
    · exact .inl ⟨by simp only [if_neg h2], .inr (Nat.lt_of_not_le h2)⟩
  · exact .inl ⟨by simp, .inl rfl⟩

/-- A reader moves forward over the bytes it consumes (rule R52): `r` is `q` after `n` bytes. -/
def Reader.After (q r : Reader) : Prop := ∃ n, n ≤ q.rest.length ∧ r = ⟨q.pos + n, q.rest.drop n⟩

theorem Reader.After.refl (q : Reader) : q.After q := ⟨0, by simp, by simp⟩

theorem Reader.After.trans {a b c : Reader} (h : a.After b) (h' : b.After c) : a.After c := by
  obtain ⟨n, hn, rfl⟩ := h
  obtain ⟨m, hm, rfl⟩ := h'
  simp only [List.length_drop] at hm
  exact ⟨n + m, by omega, by simp [List.drop_drop, Nat.add_assoc]⟩

/-- The reader a reading operation ends with. -/
def Read.reader {α : Type} : Read α → Reader
  | .ok _ r  => r
  | .err _ r => r

@[simp] theorem Read.reader_ok {α : Type} (a : α) (r : Reader) : (Read.ok a r).reader = r := rfl

@[simp] theorem Read.reader_err {α : Type} (e : DecodeError) (r : Reader) : (Read.err e r : Read α).reader = r := rfl

/-- A sequence of reads moves the reader forward when each of its parts does. -/
theorem Read.after_andThen {α β : Type} {q : Reader} {x : Read α} {f : α → Reader → Read β}
    (hx : q.After x.reader) (hf : ∀ a r, q.After r → q.After (f a r).reader) :
    q.After (x.andThen f).reader := by
  cases x with
  | ok a r  => exact hf a r hx
  | err e r => exact hx

theorem readFieldUntil_after (tag : Tag) (r : Reader) : r.After (readFieldUntil tag r).reader := by
  rcases readFieldUntil_cases tag r with ⟨xs, b, rest, h, -, -, e⟩ | ⟨-, e⟩
  · rw [e]
    refine ⟨xs.length + 1, by simp [h], ?_⟩
    simp [h, List.drop_append, Nat.add_assoc]
  · rw [e]
    exact ⟨r.rest.length, le_refl _, by simp⟩

theorem packK_after (c : Cfg) (v0 k : Nat) (run : List Byte) (r : Reader) : r.After (packK c v0 k run r).reader := by
  rcases packK_cases c v0 k run r with ⟨e, -⟩ | ⟨e, -⟩ <;> rw [e] <;> exact .refl r

theorem pack6_after (c : Cfg) (run : List Byte) (r : Reader) : r.After (pack6 c run r).reader :=
  packK_after ..

theorem decodeSync_after (c : Cfg) (r : Reader) : r.After (decodeSync c r).reader := by
  refine Read.after_andThen (readFieldUntil_after _ _) fun _ _ hq => ?_
  dsimp only
  split
  · exact hq
  · exact Read.after_andThen (hq.trans (packK_after ..)) fun _ _ hq =>
      Read.after_andThen (hq.trans (readFieldUntil_after ..)) fun _ _ hq =>
      Read.after_andThen (hq.trans (pack6_after ..)) fun _ _ hq => hq

theorem decodeDbr_after (c : Cfg) (r : Reader) : r.After (decodeDbr c r).reader :=
  Read.after_andThen (readFieldUntil_after _ _) fun _ _ hq =>
  Read.after_andThen (hq.trans (pack6_after ..)) fun _ _ hq =>
  Read.after_andThen (hq.trans (readFieldUntil_after ..)) fun _ _ hq =>
  Read.after_andThen (hq.trans (pack6_after ..)) fun _ _ hq => hq

theorem decodeIbr_after (c : Cfg) (r : Reader) : r.After (decodeIbr c r).reader :=
  Read.after_andThen (readFieldUntil_after _ _) fun _ _ hq =>
  Read.after_andThen (hq.trans (packK_after ..)) fun _ _ hq =>
  Read.after_andThen (hq.trans (readFieldUntil_after ..)) fun _ _ hq =>
  Read.after_andThen (hq.trans (pack6_after ..)) fun _ _ hq =>
  Read.after_andThen (hq.trans (readFieldUntil_after ..)) fun _ _ hq =>
  Read.after_andThen (hq.trans (pack6_after ..)) fun _ _ hq => hq

theorem decodeCorr_after (c : Cfg) (r : Reader) : r.After (decodeCorr c r).reader :=
  Read.after_andThen (readFieldUntil_after _ _) fun _ _ hq =>
  Read.after_andThen (hq.trans (packK_after ..)) fun _ _ hq =>
  Read.after_andThen (hq.trans (readFieldUntil_after ..)) fun _ _ hq =>
  Read.after_andThen (hq.trans (pack6_after ..)) fun _ _ hq => hq

theorem decodeOther_after (c : Cfg) (t : Byte) (r : Reader) : r.After (decodeOther c t r).reader := by
  unfold decodeOther
  split
  · exact Read.after_andThen (readFieldUntil_after ..) fun _ _ hq => hq
  · exact .refl r

/-- The kind's own rule only moves the reader forward from just after the Tcode byte. -/
theorem decodePacket_cons_after (c : Cfg) (p : Nat) (t : Byte) (bs : List Byte) :
    Reader.After ⟨p + 1, bs⟩ (decodePacket c ⟨p, t :: bs⟩).reader := by
  unfold decodePacket
  simp only [readByte_cons, Read.ok_andThen]
  split_ifs
  · exact decodeSync_after ..
  · exact decodeDbr_after ..
  · exact decodeIbr_after ..
  · exact decodeCorr_after ..
  · exact decodeOther_after ..
  · exact .refl _

/-- What a decode leaves of the stream (rules R22, R52): the reader moves forward over bytes of the stream only, and a
packet that decodes has consumed at least its Tcode byte. -/
theorem decodePacket_after (c : Cfg) (r : Reader) : r.After (decodePacket c r).reader := by
  obtain ⟨p, rest⟩ := r
  cases rest with
  | nil => exact .refl _
  | cons t bs => exact Reader.After.trans ⟨1, by simp, by simp⟩ (decodePacket_cons_after c p t bs)

theorem decodePacket_ok_pos {c : Cfg} {r q : Reader} {x : Item} (h : decodePacket c r = .ok x q) :
    r.pos < q.pos ∧ q.pos ≤ r.pos + r.rest.length ∧ q.rest = r.rest.drop (q.pos - r.pos) := by
  obtain ⟨p, rest⟩ := r
  cases rest with
  | nil => exact absurd h (by simp [decodePacket])
  | cons t bs =>
    have := decodePacket_cons_after c p t bs
    rw [h] at this
    obtain ⟨n, hn, rfl⟩ := this
    simp only [List.length_cons] at hn ⊢
    refine ⟨by omega, by omega, ?_⟩
    rw [show p + 1 + n - p = n + 1 by omega]
    simp

theorem decodePacket_err_pos {c : Cfg} {r q : Reader} {e : DecodeError} (h : decodePacket c r = .err e q) :
    r.pos ≤ q.pos ∧ q.pos ≤ r.pos + r.rest.length := by
  have := decodePacket_after c r
  rw [h] at this
  obtain ⟨n, hn, e⟩ := this
  have : q.pos = r.pos + n := by simp at e; rw [e]
  omega

end Sys2Proof
end

