-- ==== Sys2Proof/Laws/State.lean ====
section
/-! SUPPORT. One lemma per field per named update of the state, true by `rfl`, so that no proof unfolds a record update. -/

namespace Sys2Proof.Machine

/-! ### `State.failWith` -/

@[simp] theorem State.failWith_phase (e : Err) (s : State) :
    (s.failWith e).phase = .failed := rfl

@[simp] theorem State.failWith_ctl (e : Err) (s : State) :
    (s.failWith e).ctl = s.ctl := rfl

@[simp] theorem State.failWith_pos (e : Err) (s : State) :
    (s.failWith e).pos = s.pos := rfl

@[simp] theorem State.failWith_pktStart (e : Err) (s : State) :
    (s.failWith e).pktStart = s.pktStart := rfl

@[simp] theorem State.failWith_packetsProcessed (e : Err) (s : State) :
    (s.failWith e).packetsProcessed = s.packetsProcessed := rfl

@[simp] theorem State.failWith_currentPc (e : Err) (s : State) :
    (s.failWith e).currentPc = s.currentPc := rfl

@[simp] theorem State.failWith_lastAbsoluteAddress (e : Err) (s : State) :
    (s.failWith e).lastAbsoluteAddress = s.lastAbsoluteAddress := rfl

@[simp] theorem State.failWith_pkt (e : Err) (s : State) :
    (s.failWith e).pkt = s.pkt := rfl

@[simp] theorem State.failWith_remaining (e : Err) (s : State) :
    (s.failWith e).remaining = s.remaining := rfl

@[simp] theorem State.failWith_lastVisited (e : Err) (s : State) :
    (s.failWith e).lastVisited = s.lastVisited := rfl

@[simp] theorem State.failWith_lastEntry (e : Err) (s : State) :
    (s.failWith e).lastEntry = s.lastEntry := rfl

@[simp] theorem State.failWith_endReason (e : Err) (s : State) :
    (s.failWith e).endReason = s.endReason := rfl

@[simp] theorem State.failWith_fail (e : Err) (s : State) :
    (s.failWith e).fail = some ⟨e, failIndex e s.packetsProcessed, s.pktStart⟩ := rfl

@[simp] theorem State.failWith_records (e : Err) (s : State) :
    (s.failWith e).records = s.records := rfl

@[simp] theorem State.failWith_events (e : Err) (s : State) :
    (s.failWith e).events = s.events := rfl

@[simp] theorem State.failWith_trace (e : Err) (s : State) :
    (s.failWith e).trace = s.trace := rfl

@[simp] theorem State.failWith_index (e : Err) (s : State) :
    (s.failWith e).index = s.index := rfl

@[simp] theorem State.failWith_cfg (e : Err) (s : State) :
    (s.failWith e).cfg = s.cfg := rfl

/-! ### `State.emit` -/

@[simp] theorem State.emit_phase (a : Word) (e : Entry) (s : State) :
    (s.emit a e).phase = s.phase := rfl

@[simp] theorem State.emit_ctl (a : Word) (e : Entry) (s : State) :
    (s.emit a e).ctl = s.ctl := rfl

@[simp] theorem State.emit_pos (a : Word) (e : Entry) (s : State) :
    (s.emit a e).pos = s.pos := rfl

@[simp] theorem State.emit_pktStart (a : Word) (e : Entry) (s : State) :
    (s.emit a e).pktStart = s.pktStart := rfl

@[simp] theorem State.emit_packetsProcessed (a : Word) (e : Entry) (s : State) :
    (s.emit a e).packetsProcessed = s.packetsProcessed := rfl

@[simp] theorem State.emit_currentPc (a : Word) (e : Entry) (s : State) :
    (s.emit a e).currentPc = s.currentPc := rfl

@[simp] theorem State.emit_lastAbsoluteAddress (a : Word) (e : Entry) (s : State) :
    (s.emit a e).lastAbsoluteAddress = s.lastAbsoluteAddress := rfl

@[simp] theorem State.emit_pkt (a : Word) (e : Entry) (s : State) :
    (s.emit a e).pkt = s.pkt := rfl

@[simp] theorem State.emit_remaining (a : Word) (e : Entry) (s : State) :
    (s.emit a e).remaining = s.remaining := rfl

@[simp] theorem State.emit_lastVisited (a : Word) (e : Entry) (s : State) :
    (s.emit a e).lastVisited = s.lastVisited := rfl

@[simp] theorem State.emit_lastEntry (a : Word) (e : Entry) (s : State) :
    (s.emit a e).lastEntry = s.lastEntry := rfl

@[simp] theorem State.emit_endReason (a : Word) (e : Entry) (s : State) :
    (s.emit a e).endReason = s.endReason := rfl

@[simp] theorem State.emit_fail (a : Word) (e : Entry) (s : State) :
    (s.emit a e).fail = s.fail := rfl

@[simp] theorem State.emit_records (a : Word) (e : Entry) (s : State) :
    (s.emit a e).records = s.records ++ [⟨a, e⟩] := rfl

@[simp] theorem State.emit_events (a : Word) (e : Entry) (s : State) :
    (s.emit a e).events = s.events := rfl

@[simp] theorem State.emit_trace (a : Word) (e : Entry) (s : State) :
    (s.emit a e).trace = s.trace := rfl

@[simp] theorem State.emit_index (a : Word) (e : Entry) (s : State) :
    (s.emit a e).index = s.index := rfl

@[simp] theorem State.emit_cfg (a : Word) (e : Entry) (s : State) :
    (s.emit a e).cfg = s.cfg := rfl

/-! ### `State.event` -/

@[simp] theorem State.event_phase (x : Event) (s : State) :
    (s.event x).phase = s.phase := rfl

@[simp] theorem State.event_ctl (x : Event) (s : State) :
    (s.event x).ctl = s.ctl := rfl

@[simp] theorem State.event_pos (x : Event) (s : State) :
    (s.event x).pos = s.pos := rfl

@[simp] theorem State.event_pktStart (x : Event) (s : State) :
    (s.event x).pktStart = s.pktStart := rfl

@[simp] theorem State.event_packetsProcessed (x : Event) (s : State) :
    (s.event x).packetsProcessed = s.packetsProcessed := rfl

@[simp] theorem State.event_currentPc (x : Event) (s : State) :
    (s.event x).currentPc = s.currentPc := rfl

@[simp] theorem State.event_lastAbsoluteAddress (x : Event) (s : State) :
    (s.event x).lastAbsoluteAddress = s.lastAbsoluteAddress := rfl

@[simp] theorem State.event_pkt (x : Event) (s : State) :
    (s.event x).pkt = s.pkt := rfl

@[simp] theorem State.event_remaining (x : Event) (s : State) :
    (s.event x).remaining = s.remaining := rfl

@[simp] theorem State.event_lastVisited (x : Event) (s : State) :
    (s.event x).lastVisited = s.lastVisited := rfl

@[simp] theorem State.event_lastEntry (x : Event) (s : State) :
    (s.event x).lastEntry = s.lastEntry := rfl

@[simp] theorem State.event_endReason (x : Event) (s : State) :
    (s.event x).endReason = s.endReason := rfl

@[simp] theorem State.event_fail (x : Event) (s : State) :
    (s.event x).fail = s.fail := rfl

@[simp] theorem State.event_records (x : Event) (s : State) :
    (s.event x).records = s.records := rfl

@[simp] theorem State.event_events (x : Event) (s : State) :
    (s.event x).events = s.events ++ [x] := rfl

@[simp] theorem State.event_trace (x : Event) (s : State) :
    (s.event x).trace = s.trace := rfl

@[simp] theorem State.event_index (x : Event) (s : State) :
    (s.event x).index = s.index := rfl

@[simp] theorem State.event_cfg (x : Event) (s : State) :
    (s.event x).cfg = s.cfg := rfl

/-! ### `State.consumed` -/

@[simp] theorem State.consumed_phase (p : Nat) (s : State) :
    (s.consumed p).phase = s.phase := rfl

@[simp] theorem State.consumed_ctl (p : Nat) (s : State) :
    (s.consumed p).ctl = s.ctl := rfl

@[simp] theorem State.consumed_pos (p : Nat) (s : State) :
    (s.consumed p).pos = p := rfl

@[simp] theorem State.consumed_pktStart (p : Nat) (s : State) :
    (s.consumed p).pktStart = s.pos := rfl

@[simp] theorem State.consumed_packetsProcessed (p : Nat) (s : State) :
    (s.consumed p).packetsProcessed = s.packetsProcessed := rfl

@[simp] theorem State.consumed_currentPc (p : Nat) (s : State) :
    (s.consumed p).currentPc = s.currentPc := rfl

@[simp] theorem State.consumed_lastAbsoluteAddress (p : Nat) (s : State) :
    (s.consumed p).lastAbsoluteAddress = s.lastAbsoluteAddress := rfl

@[simp] theorem State.consumed_pkt (p : Nat) (s : State) :
    (s.consumed p).pkt = s.pkt := rfl

@[simp] theorem State.consumed_remaining (p : Nat) (s : State) :
    (s.consumed p).remaining = s.remaining := rfl

@[simp] theorem State.consumed_lastVisited (p : Nat) (s : State) :
    (s.consumed p).lastVisited = s.lastVisited := rfl

@[simp] theorem State.consumed_lastEntry (p : Nat) (s : State) :
    (s.consumed p).lastEntry = s.lastEntry := rfl

@[simp] theorem State.consumed_endReason (p : Nat) (s : State) :
    (s.consumed p).endReason = s.endReason := rfl

@[simp] theorem State.consumed_fail (p : Nat) (s : State) :
    (s.consumed p).fail = s.fail := rfl

@[simp] theorem State.consumed_records (p : Nat) (s : State) :
    (s.consumed p).records = s.records := rfl

@[simp] theorem State.consumed_events (p : Nat) (s : State) :
    (s.consumed p).events = s.events := rfl

@[simp] theorem State.consumed_trace (p : Nat) (s : State) :
    (s.consumed p).trace = s.trace := rfl

@[simp] theorem State.consumed_index (p : Nat) (s : State) :
    (s.consumed p).index = s.index := rfl

@[simp] theorem State.consumed_cfg (p : Nat) (s : State) :
    (s.consumed p).cfg = s.cfg := rfl

/-! ### `State.countPacket` -/

@[simp] theorem State.countPacket_phase (s : State) :
    (s.countPacket).phase = s.phase := rfl

@[simp] theorem State.countPacket_ctl (s : State) :
    (s.countPacket).ctl = s.ctl := rfl

@[simp] theorem State.countPacket_pos (s : State) :
    (s.countPacket).pos = s.pos := rfl

@[simp] theorem State.countPacket_pktStart (s : State) :
    (s.countPacket).pktStart = s.pktStart := rfl

@[simp] theorem State.countPacket_packetsProcessed (s : State) :
    (s.countPacket).packetsProcessed = s.packetsProcessed + 1 := rfl

@[simp] theorem State.countPacket_currentPc (s : State) :
    (s.countPacket).currentPc = s.currentPc := rfl

@[simp] theorem State.countPacket_lastAbsoluteAddress (s : State) :
    (s.countPacket).lastAbsoluteAddress = s.lastAbsoluteAddress := rfl

@[simp] theorem State.countPacket_pkt (s : State) :
    (s.countPacket).pkt = s.pkt := rfl

@[simp] theorem State.countPacket_remaining (s : State) :
    (s.countPacket).remaining = s.remaining := rfl

@[simp] theorem State.countPacket_lastVisited (s : State) :
    (s.countPacket).lastVisited = s.lastVisited := rfl

@[simp] theorem State.countPacket_lastEntry (s : State) :
    (s.countPacket).lastEntry = s.lastEntry := rfl

@[simp] theorem State.countPacket_endReason (s : State) :
    (s.countPacket).endReason = s.endReason := rfl

@[simp] theorem State.countPacket_fail (s : State) :
    (s.countPacket).fail = s.fail := rfl

@[simp] theorem State.countPacket_records (s : State) :
    (s.countPacket).records = s.records := rfl

@[simp] theorem State.countPacket_events (s : State) :
    (s.countPacket).events = s.events := rfl

@[simp] theorem State.countPacket_trace (s : State) :
    (s.countPacket).trace = s.trace := rfl

@[simp] theorem State.countPacket_index (s : State) :
    (s.countPacket).index = s.index := rfl

@[simp] theorem State.countPacket_cfg (s : State) :
    (s.countPacket).cfg = s.cfg := rfl

/-! ### `State.accept` -/

@[simp] theorem State.accept_phase (p : Packet) (s : State) :
    (s.accept p).phase = s.phase := rfl

@[simp] theorem State.accept_ctl (p : Packet) (s : State) :
    (s.accept p).ctl = s.ctl := rfl

@[simp] theorem State.accept_pos (p : Packet) (s : State) :
    (s.accept p).pos = s.pos := rfl

@[simp] theorem State.accept_pktStart (p : Packet) (s : State) :
    (s.accept p).pktStart = s.pktStart := rfl

@[simp] theorem State.accept_packetsProcessed (p : Packet) (s : State) :
    (s.accept p).packetsProcessed = s.packetsProcessed + 1 := rfl

@[simp] theorem State.accept_currentPc (p : Packet) (s : State) :
    (s.accept p).currentPc = s.currentPc := rfl

@[simp] theorem State.accept_lastAbsoluteAddress (p : Packet) (s : State) :
    (s.accept p).lastAbsoluteAddress = s.lastAbsoluteAddress := rfl

@[simp] theorem State.accept_pkt (p : Packet) (s : State) :
    (s.accept p).pkt = p := rfl

@[simp] theorem State.accept_remaining (p : Packet) (s : State) :
    (s.accept p).remaining = s.remaining := rfl

@[simp] theorem State.accept_lastVisited (p : Packet) (s : State) :
    (s.accept p).lastVisited = s.lastVisited := rfl

@[simp] theorem State.accept_lastEntry (p : Packet) (s : State) :
    (s.accept p).lastEntry = s.lastEntry := rfl

@[simp] theorem State.accept_endReason (p : Packet) (s : State) :
    (s.accept p).endReason = s.endReason := rfl

@[simp] theorem State.accept_fail (p : Packet) (s : State) :
    (s.accept p).fail = s.fail := rfl

@[simp] theorem State.accept_records (p : Packet) (s : State) :
    (s.accept p).records = s.records := rfl

@[simp] theorem State.accept_events (p : Packet) (s : State) :
    (s.accept p).events = s.events ++ [.decoded p] := rfl

@[simp] theorem State.accept_trace (p : Packet) (s : State) :
    (s.accept p).trace = s.trace := rfl

@[simp] theorem State.accept_index (p : Packet) (s : State) :
    (s.accept p).index = s.index := rfl

@[simp] theorem State.accept_cfg (p : Packet) (s : State) :
    (s.accept p).cfg = s.cfg := rfl

/-! ### `State.startWalk` -/

@[simp] theorem State.startWalk_phase (k : Ctl) (n : Word) (s : State) :
    (s.startWalk k n).phase = s.phase := rfl

@[simp] theorem State.startWalk_ctl (k : Ctl) (n : Word) (s : State) :
    (s.startWalk k n).ctl = k := rfl

@[simp] theorem State.startWalk_pos (k : Ctl) (n : Word) (s : State) :
    (s.startWalk k n).pos = s.pos := rfl

@[simp] theorem State.startWalk_pktStart (k : Ctl) (n : Word) (s : State) :
    (s.startWalk k n).pktStart = s.pktStart := rfl

@[simp] theorem State.startWalk_packetsProcessed (k : Ctl) (n : Word) (s : State) :
    (s.startWalk k n).packetsProcessed = s.packetsProcessed := rfl

@[simp] theorem State.startWalk_currentPc (k : Ctl) (n : Word) (s : State) :
    (s.startWalk k n).currentPc = s.currentPc := rfl

@[simp] theorem State.startWalk_lastAbsoluteAddress (k : Ctl) (n : Word) (s : State) :
    (s.startWalk k n).lastAbsoluteAddress = s.lastAbsoluteAddress := rfl

@[simp] theorem State.startWalk_pkt (k : Ctl) (n : Word) (s : State) :
    (s.startWalk k n).pkt = s.pkt := rfl

@[simp] theorem State.startWalk_remaining (k : Ctl) (n : Word) (s : State) :
    (s.startWalk k n).remaining = n := rfl

@[simp] theorem State.startWalk_lastVisited (k : Ctl) (n : Word) (s : State) :
    (s.startWalk k n).lastVisited = s.lastVisited := rfl

@[simp] theorem State.startWalk_lastEntry (k : Ctl) (n : Word) (s : State) :
    (s.startWalk k n).lastEntry = none := rfl

@[simp] theorem State.startWalk_endReason (k : Ctl) (n : Word) (s : State) :
    (s.startWalk k n).endReason = s.endReason := rfl

@[simp] theorem State.startWalk_fail (k : Ctl) (n : Word) (s : State) :
    (s.startWalk k n).fail = s.fail := rfl

@[simp] theorem State.startWalk_records (k : Ctl) (n : Word) (s : State) :
    (s.startWalk k n).records = s.records := rfl

@[simp] theorem State.startWalk_events (k : Ctl) (n : Word) (s : State) :
    (s.startWalk k n).events = s.events := rfl

@[simp] theorem State.startWalk_trace (k : Ctl) (n : Word) (s : State) :
    (s.startWalk k n).trace = s.trace := rfl

@[simp] theorem State.startWalk_index (k : Ctl) (n : Word) (s : State) :
    (s.startWalk k n).index = s.index := rfl

@[simp] theorem State.startWalk_cfg (k : Ctl) (n : Word) (s : State) :
    (s.startWalk k n).cfg = s.cfg := rfl

/-! ### `State.ignore` -/

@[simp] theorem State.ignore_phase (k : Kind) (s : State) :
    (s.ignore k).phase = s.phase := rfl

@[simp] theorem State.ignore_ctl (k : Kind) (s : State) :
    (s.ignore k).ctl = s.ctl := rfl

@[simp] theorem State.ignore_pos (k : Kind) (s : State) :
    (s.ignore k).pos = s.pos := rfl

@[simp] theorem State.ignore_pktStart (k : Kind) (s : State) :
    (s.ignore k).pktStart = s.pktStart := rfl

@[simp] theorem State.ignore_packetsProcessed (k : Kind) (s : State) :
    (s.ignore k).packetsProcessed = s.packetsProcessed := rfl

@[simp] theorem State.ignore_currentPc (k : Kind) (s : State) :
    (s.ignore k).currentPc = s.currentPc := rfl

@[simp] theorem State.ignore_lastAbsoluteAddress (k : Kind) (s : State) :
    (s.ignore k).lastAbsoluteAddress = s.lastAbsoluteAddress := rfl

@[simp] theorem State.ignore_pkt (k : Kind) (s : State) :
    (s.ignore k).pkt = s.pkt := rfl

@[simp] theorem State.ignore_remaining (k : Kind) (s : State) :
    (s.ignore k).remaining = s.remaining := rfl

@[simp] theorem State.ignore_lastVisited (k : Kind) (s : State) :
    (s.ignore k).lastVisited = s.lastVisited := rfl

@[simp] theorem State.ignore_lastEntry (k : Kind) (s : State) :
    (s.ignore k).lastEntry = s.lastEntry := rfl

@[simp] theorem State.ignore_endReason (k : Kind) (s : State) :
    (s.ignore k).endReason = s.endReason := rfl

@[simp] theorem State.ignore_fail (k : Kind) (s : State) :
    (s.ignore k).fail = s.fail := rfl

@[simp] theorem State.ignore_records (k : Kind) (s : State) :
    (s.ignore k).records = s.records := rfl

@[simp] theorem State.ignore_events (k : Kind) (s : State) :
    (s.ignore k).events = s.events ++ [.ignored k] := rfl

@[simp] theorem State.ignore_trace (k : Kind) (s : State) :
    (s.ignore k).trace = s.trace := rfl

@[simp] theorem State.ignore_index (k : Kind) (s : State) :
    (s.ignore k).index = s.index := rfl

@[simp] theorem State.ignore_cfg (k : Kind) (s : State) :
    (s.ignore k).cfg = s.cfg := rfl

/-! ### `State.noteVisit` -/

@[simp] theorem State.noteVisit_phase (a : Word) (e : Entry) (s : State) :
    (s.noteVisit a e).phase = s.phase := rfl

@[simp] theorem State.noteVisit_ctl (a : Word) (e : Entry) (s : State) :
    (s.noteVisit a e).ctl = s.ctl := rfl

@[simp] theorem State.noteVisit_pos (a : Word) (e : Entry) (s : State) :
    (s.noteVisit a e).pos = s.pos := rfl

@[simp] theorem State.noteVisit_pktStart (a : Word) (e : Entry) (s : State) :
    (s.noteVisit a e).pktStart = s.pktStart := rfl

@[simp] theorem State.noteVisit_packetsProcessed (a : Word) (e : Entry) (s : State) :
    (s.noteVisit a e).packetsProcessed = s.packetsProcessed := rfl

@[simp] theorem State.noteVisit_currentPc (a : Word) (e : Entry) (s : State) :
    (s.noteVisit a e).currentPc = s.currentPc := rfl

@[simp] theorem State.noteVisit_lastAbsoluteAddress (a : Word) (e : Entry) (s : State) :
    (s.noteVisit a e).lastAbsoluteAddress = s.lastAbsoluteAddress := rfl

@[simp] theorem State.noteVisit_pkt (a : Word) (e : Entry) (s : State) :
    (s.noteVisit a e).pkt = s.pkt := rfl

@[simp] theorem State.noteVisit_remaining (a : Word) (e : Entry) (s : State) :
    (s.noteVisit a e).remaining = s.remaining := rfl

@[simp] theorem State.noteVisit_lastVisited (a : Word) (e : Entry) (s : State) :
    (s.noteVisit a e).lastVisited = a := rfl

@[simp] theorem State.noteVisit_lastEntry (a : Word) (e : Entry) (s : State) :
    (s.noteVisit a e).lastEntry = some e := rfl

@[simp] theorem State.noteVisit_endReason (a : Word) (e : Entry) (s : State) :
    (s.noteVisit a e).endReason = s.endReason := rfl

@[simp] theorem State.noteVisit_fail (a : Word) (e : Entry) (s : State) :
    (s.noteVisit a e).fail = s.fail := rfl

@[simp] theorem State.noteVisit_records (a : Word) (e : Entry) (s : State) :
    (s.noteVisit a e).records = s.records ++ [⟨a, e⟩] := rfl

@[simp] theorem State.noteVisit_events (a : Word) (e : Entry) (s : State) :
    (s.noteVisit a e).events = s.events := rfl

@[simp] theorem State.noteVisit_trace (a : Word) (e : Entry) (s : State) :
    (s.noteVisit a e).trace = s.trace := rfl

@[simp] theorem State.noteVisit_index (a : Word) (e : Entry) (s : State) :
    (s.noteVisit a e).index = s.index := rfl

@[simp] theorem State.noteVisit_cfg (a : Word) (e : Entry) (s : State) :
    (s.noteVisit a e).cfg = s.cfg := rfl

/-! ### `State.takeParcels` -/

@[simp] theorem State.takeParcels_phase (n : Nat) (s : State) :
    (s.takeParcels n).phase = s.phase := rfl

@[simp] theorem State.takeParcels_ctl (n : Nat) (s : State) :
    (s.takeParcels n).ctl = s.ctl := rfl

@[simp] theorem State.takeParcels_pos (n : Nat) (s : State) :
    (s.takeParcels n).pos = s.pos := rfl

@[simp] theorem State.takeParcels_pktStart (n : Nat) (s : State) :
    (s.takeParcels n).pktStart = s.pktStart := rfl

@[simp] theorem State.takeParcels_packetsProcessed (n : Nat) (s : State) :
    (s.takeParcels n).packetsProcessed = s.packetsProcessed := rfl

@[simp] theorem State.takeParcels_currentPc (n : Nat) (s : State) :
    (s.takeParcels n).currentPc = s.currentPc := rfl

@[simp] theorem State.takeParcels_lastAbsoluteAddress (n : Nat) (s : State) :
    (s.takeParcels n).lastAbsoluteAddress = s.lastAbsoluteAddress := rfl

@[simp] theorem State.takeParcels_pkt (n : Nat) (s : State) :
    (s.takeParcels n).pkt = s.pkt := rfl

@[simp] theorem State.takeParcels_remaining (n : Nat) (s : State) :
    (s.takeParcels n).remaining = s.remaining - BitVec.ofNat 64 n := rfl

@[simp] theorem State.takeParcels_lastVisited (n : Nat) (s : State) :
    (s.takeParcels n).lastVisited = s.lastVisited := rfl

@[simp] theorem State.takeParcels_lastEntry (n : Nat) (s : State) :
    (s.takeParcels n).lastEntry = s.lastEntry := rfl

@[simp] theorem State.takeParcels_endReason (n : Nat) (s : State) :
    (s.takeParcels n).endReason = s.endReason := rfl

@[simp] theorem State.takeParcels_fail (n : Nat) (s : State) :
    (s.takeParcels n).fail = s.fail := rfl

@[simp] theorem State.takeParcels_records (n : Nat) (s : State) :
    (s.takeParcels n).records = s.records := rfl

@[simp] theorem State.takeParcels_events (n : Nat) (s : State) :
    (s.takeParcels n).events = s.events := rfl

@[simp] theorem State.takeParcels_trace (n : Nat) (s : State) :
    (s.takeParcels n).trace = s.trace := rfl

@[simp] theorem State.takeParcels_index (n : Nat) (s : State) :
    (s.takeParcels n).index = s.index := rfl

@[simp] theorem State.takeParcels_cfg (n : Nat) (s : State) :
    (s.takeParcels n).cfg = s.cfg := rfl

/-! ### `State.enterAt` -/

@[simp] theorem State.enterAt_phase (a : Word) (s : State) :
    (s.enterAt a).phase = .running := rfl

@[simp] theorem State.enterAt_ctl (a : Word) (s : State) :
    (s.enterAt a).ctl = s.ctl := rfl

@[simp] theorem State.enterAt_pos (a : Word) (s : State) :
    (s.enterAt a).pos = s.pos := rfl

@[simp] theorem State.enterAt_pktStart (a : Word) (s : State) :
    (s.enterAt a).pktStart = s.pktStart := rfl

@[simp] theorem State.enterAt_packetsProcessed (a : Word) (s : State) :
    (s.enterAt a).packetsProcessed = s.packetsProcessed := rfl

@[simp] theorem State.enterAt_currentPc (a : Word) (s : State) :
    (s.enterAt a).currentPc = a := rfl

@[simp] theorem State.enterAt_lastAbsoluteAddress (a : Word) (s : State) :
    (s.enterAt a).lastAbsoluteAddress = a := rfl

@[simp] theorem State.enterAt_pkt (a : Word) (s : State) :
    (s.enterAt a).pkt = s.pkt := rfl

@[simp] theorem State.enterAt_remaining (a : Word) (s : State) :
    (s.enterAt a).remaining = s.remaining := rfl

@[simp] theorem State.enterAt_lastVisited (a : Word) (s : State) :
    (s.enterAt a).lastVisited = s.lastVisited := rfl

@[simp] theorem State.enterAt_lastEntry (a : Word) (s : State) :
    (s.enterAt a).lastEntry = s.lastEntry := rfl

@[simp] theorem State.enterAt_endReason (a : Word) (s : State) :
    (s.enterAt a).endReason = s.endReason := rfl

@[simp] theorem State.enterAt_fail (a : Word) (s : State) :
    (s.enterAt a).fail = s.fail := rfl

@[simp] theorem State.enterAt_records (a : Word) (s : State) :
    (s.enterAt a).records = s.records := rfl

@[simp] theorem State.enterAt_events (a : Word) (s : State) :
    (s.enterAt a).events = s.events := rfl

@[simp] theorem State.enterAt_trace (a : Word) (s : State) :
    (s.enterAt a).trace = s.trace := rfl

@[simp] theorem State.enterAt_index (a : Word) (s : State) :
    (s.enterAt a).index = s.index := rfl

@[simp] theorem State.enterAt_cfg (a : Word) (s : State) :
    (s.enterAt a).cfg = s.cfg := rfl

/-! ### `State.launch` -/

@[simp] theorem State.launch_phase (c : Cfg) (x : Index) (t : List Byte) :
    (State.launch c x t).phase = .init := rfl

@[simp] theorem State.launch_ctl (c : Cfg) (x : Index) (t : List Byte) :
    (State.launch c x t).ctl = .idle := rfl

@[simp] theorem State.launch_pos (c : Cfg) (x : Index) (t : List Byte) :
    (State.launch c x t).pos = 0 := rfl

@[simp] theorem State.launch_pktStart (c : Cfg) (x : Index) (t : List Byte) :
    (State.launch c x t).pktStart = 0 := rfl

@[simp] theorem State.launch_packetsProcessed (c : Cfg) (x : Index) (t : List Byte) :
    (State.launch c x t).packetsProcessed = 0 := rfl

@[simp] theorem State.launch_currentPc (c : Cfg) (x : Index) (t : List Byte) :
    (State.launch c x t).currentPc = 0 := rfl

@[simp] theorem State.launch_lastAbsoluteAddress (c : Cfg) (x : Index) (t : List Byte) :
    (State.launch c x t).lastAbsoluteAddress = 0 := rfl

@[simp] theorem State.launch_pkt (c : Cfg) (x : Index) (t : List Byte) :
    (State.launch c x t).pkt = Packet.empty := rfl

@[simp] theorem State.launch_remaining (c : Cfg) (x : Index) (t : List Byte) :
    (State.launch c x t).remaining = 0 := rfl

@[simp] theorem State.launch_lastVisited (c : Cfg) (x : Index) (t : List Byte) :
    (State.launch c x t).lastVisited = 0 := rfl

@[simp] theorem State.launch_lastEntry (c : Cfg) (x : Index) (t : List Byte) :
    (State.launch c x t).lastEntry = none := rfl

@[simp] theorem State.launch_endReason (c : Cfg) (x : Index) (t : List Byte) :
    (State.launch c x t).endReason = .none := rfl

@[simp] theorem State.launch_fail (c : Cfg) (x : Index) (t : List Byte) :
    (State.launch c x t).fail = none := rfl

@[simp] theorem State.launch_records (c : Cfg) (x : Index) (t : List Byte) :
    (State.launch c x t).records = [] := rfl

@[simp] theorem State.launch_events (c : Cfg) (x : Index) (t : List Byte) :
    (State.launch c x t).events = [] := rfl

@[simp] theorem State.launch_trace (c : Cfg) (x : Index) (t : List Byte) :
    (State.launch c x t).trace = t := rfl

@[simp] theorem State.launch_index (c : Cfg) (x : Index) (t : List Byte) :
    (State.launch c x t).index = x := rfl

@[simp] theorem State.launch_cfg (c : Cfg) (x : Index) (t : List Byte) :
    (State.launch c x t).cfg = c := rfl

end Sys2Proof.Machine
end

