-- ==== Sys2Proof/Laws/Ops.lean ====
section
/-! SUPPORT. One lemma per shared operation that says once everything it can do: the lemmas cited instead of unfolding
the operation. -/

namespace Sys2Proof.Machine

/-- Rule R211: an error is always taken, as a next state. -/
@[simp] theorem raise_eq (e : Err) (s : State) : raise e s = .next (s.failWith e) := rfl

theorem raise_next_iff {e : Err} {s t : State} : raise e s = .next t ↔ t = s.failWith e := by
  rw [raise_eq]
  exact ⟨fun h => by injection h with h; exact h.symm, fun h => h ▸ rfl⟩

@[simp] theorem failIndex_decode (e : DecodeError) (n : BitVec 64) : failIndex (.decode e) n = n := rfl

/-- Rule R211: an error raised outside `DecodePacket` is the last counted packet's. -/
theorem failIndex_of_not_decode {e : Err} (h : ∀ d, e ≠ .decode d) (n : BitVec 64) : failIndex e n = n - 1 := by
  cases e with
  | decode d => exact absurd rfl (h d)
  | _ => rfl

/-- Everything the handling of a decoded packet can do. -/
theorem handlePacket_next_cases {p : Packet} {f g : State → Result} {s t : State}
    (h : handlePacket p f g s = .next t) :
    (s.phase = .init ∧ f (s.accept p) = .next t) ∨
    (s.phase = .running ∧ s.ctl = .idle ∧ g (s.accept p) = .next t) := by
  unfold handlePacket at h
  split at h
  · exact .inl ⟨‹_›, h⟩
  · split at h
    · exact .inr ⟨‹_›, ‹_›, h⟩
    · cases h
  · cases h
  · cases h

theorem handlePacket_init {p : Packet} {f g : State → Result} {s : State} (h : s.phase = .init) :
    handlePacket p f g s = f (s.accept p) := by
  simp [handlePacket, h]

theorem handlePacket_running {p : Packet} {f g : State → Result} {s : State} (h : s.phase = .running)
    (hc : s.ctl = .idle) : handlePacket p f g s = g (s.accept p) := by
  simp [handlePacket, h, hc]

/-- The meanings as instances of the shared handling. -/
theorem runOther_eq (c : Tcode) (s : State) :
    runOther c s =
      handlePacket (otherPacket c) (raise (.expectedSync (.other c))) (fun t => .next (t.ignore (.other c))) s := rfl

theorem execSync_eq (m : BitVec 4) (fa ts : Word) (s : State) :
    execSync m fa ts s =
      handlePacket (Instr.sync m fa ts).packet (fun t => .next (t.enterAt (unscale fa)))
        (fun t => .next (t.ignore .sync)) s := rfl

theorem execDbr_eq (n ts : Word) (s : State) :
    execDbr n ts s =
      handlePacket (Instr.dbr n ts).packet (raise (.expectedSync .dbr))
        (fun t => if n = 0 then raise .emptyDirectBranch t else .next (t.startWalk .walkDirect n)) s := rfl

theorem execIbr_eq (b : BranchType) (n d ts : Word) (s : State) :
    execIbr b n d ts s =
      handlePacket (Instr.ibr b n d ts).packet (raise (.expectedSync .ibr))
        (fun t => .next (t.startWalk .walkIndirect n)) s := rfl

theorem execCorr_eq (v : BitVec 2) (n ts : Word) (s : State) :
    execCorr v n ts s =
      handlePacket (Instr.corr v n ts).packet (raise (.expectedSync .corr))
        (fun t => .next (t.startWalk .walkCorr n)) s := rfl

/-- An item is one of the four handled kinds or a recognized-but-unhandled Tcode, and runs as such. -/
theorem runItem_kinds (x : Item) :
    (∃ m fa ts, x = .row (.sync m fa ts) ∧ ∀ s, runItem x s = execSync m fa ts s) ∨
    (∃ n ts, x = .row (.dbr n ts) ∧ ∀ s, runItem x s = execDbr n ts s) ∨
    (∃ b n d ts, x = .row (.ibr b n d ts) ∧ ∀ s, runItem x s = execIbr b n d ts s) ∨
    (∃ v n ts, x = .row (.corr v n ts) ∧ ∀ s, runItem x s = execCorr v n ts s) ∨
    (∃ c, x.packet = otherPacket c ∧ ∀ s, runItem x s = runOther c s) := by
  rcases x with i | c
  · cases i with
    | sync m fa ts => exact .inl ⟨m, fa, ts, rfl, fun _ => rfl⟩
    | dbr n ts     => exact .inr (.inl ⟨n, ts, rfl, fun _ => rfl⟩)
    | ibr b n d ts => exact .inr (.inr (.inl ⟨b, n, d, ts, rfl, fun _ => rfl⟩))
    | corr v n ts  => exact .inr (.inr (.inr (.inl ⟨v, n, ts, rfl, fun _ => rfl⟩)))
    | other2       => exact .inr (.inr (.inr (.inr ⟨2, rfl, fun _ => rfl⟩)))
    | other8       => exact .inr (.inr (.inr (.inr ⟨8, rfl, fun _ => rfl⟩)))
    | other11      => exact .inr (.inr (.inr (.inr ⟨11, rfl, fun _ => rfl⟩)))
    | other12      => exact .inr (.inr (.inr (.inr ⟨12, rfl, fun _ => rfl⟩)))
    | other27      => exact .inr (.inr (.inr (.inr ⟨27, rfl, fun _ => rfl⟩)))
    | other28      => exact .inr (.inr (.inr (.inr ⟨28, rfl, fun _ => rfl⟩)))
    | other29      => exact .inr (.inr (.inr (.inr ⟨29, rfl, fun _ => rfl⟩)))
  · exact .inr (.inr (.inr (.inr ⟨c, rfl, fun _ => rfl⟩)))

/-- Everything a decoded packet can do (rules R151, R152, R160). -/
theorem runItem_next_cases {x : Item} {s t : State} (h : runItem x s = .next t) :
    (s.phase = .init ∧
      ((∃ m fa ts, x = .row (.sync m fa ts) ∧ t = (s.accept x.packet).enterAt (unscale fa)) ∨
        (x.packet.kind ≠ .sync ∧ t = (s.accept x.packet).failWith (.expectedSync x.packet.kind)))) ∨
    (s.phase = .running ∧ s.ctl = .idle ∧
      ((∃ ts, x = .row (.dbr 0 ts) ∧ t = (s.accept x.packet).failWith .emptyDirectBranch) ∨
        (∃ n ts, n ≠ 0 ∧ x = .row (.dbr n ts) ∧ t = (s.accept x.packet).startWalk .walkDirect n) ∨
        (∃ b n d ts, x = .row (.ibr b n d ts) ∧ t = (s.accept x.packet).startWalk .walkIndirect n) ∨
        (∃ v n ts, x = .row (.corr v n ts) ∧ t = (s.accept x.packet).startWalk .walkCorr n) ∨
        ((x.packet.kind = .sync ∨ ∃ c, x.packet.kind = .other c) ∧
          t = (s.accept x.packet).ignore x.packet.kind))) := by
  rcases runItem_kinds x with ⟨m, fa, ts, rfl, e⟩ | ⟨n, ts, rfl, e⟩ | ⟨b, n, d, ts, rfl, e⟩ | ⟨v, n, ts, rfl, e⟩ |
    ⟨c, hx, e⟩
  · rw [e, execSync_eq] at h
    rcases handlePacket_next_cases h with ⟨hp, h⟩ | ⟨hp, hc, h⟩ <;> injection h with h
    · exact .inl ⟨hp, .inl ⟨m, fa, ts, rfl, h.symm⟩⟩
    · exact .inr ⟨hp, hc, .inr (.inr (.inr (.inr ⟨.inl rfl, h.symm⟩)))⟩
  · rw [e, execDbr_eq] at h
    rcases handlePacket_next_cases h with ⟨hp, h⟩ | ⟨hp, hc, h⟩
    · exact .inl ⟨hp, .inr ⟨by simp [Item.packet, Instr.packet], raise_next_iff.1 h⟩⟩
    · split at h
      · rename_i hn
        subst hn
        exact .inr ⟨hp, hc, .inl ⟨ts, rfl, raise_next_iff.1 h⟩⟩
      · rename_i hn
        injection h with h
        exact .inr ⟨hp, hc, .inr (.inl ⟨n, ts, hn, rfl, h.symm⟩)⟩
  · rw [e, execIbr_eq] at h
    rcases handlePacket_next_cases h with ⟨hp, h⟩ | ⟨hp, hc, h⟩
    · exact .inl ⟨hp, .inr ⟨by simp [Item.packet, Instr.packet], raise_next_iff.1 h⟩⟩
    · injection h with h
      exact .inr ⟨hp, hc, .inr (.inr (.inl ⟨b, n, d, ts, rfl, h.symm⟩))⟩
  · rw [e, execCorr_eq] at h
    rcases handlePacket_next_cases h with ⟨hp, h⟩ | ⟨hp, hc, h⟩
    · exact .inl ⟨hp, .inr ⟨by simp [Item.packet, Instr.packet], raise_next_iff.1 h⟩⟩
    · injection h with h
      exact .inr ⟨hp, hc, .inr (.inr (.inr (.inl ⟨v, n, ts, rfl, h.symm⟩)))⟩
  · rw [e, runOther_eq, ← hx] at h
    have hk : x.packet.kind = .other c := by rw [hx]; rfl
    rw [hk]
    rcases handlePacket_next_cases h with ⟨hp, h⟩ | ⟨hp, hc, h⟩
    · exact .inl ⟨hp, .inr ⟨by simp, raise_next_iff.1 h⟩⟩
    · injection h with h
      exact .inr ⟨hp, hc, .inr (.inr (.inr (.inr ⟨.inr ⟨c, rfl⟩, h.symm⟩)))⟩

/-- The shared handling completes where packets are read, if its two continuations do. -/
theorem handlePacket_completes {p : Packet} {f g : State → Result} {s : State}
    (hf : ∀ u, ∃ t, f u = .next t) (hg : ∀ u, ∃ t, g u = .next t)
    (h : s.phase = .init ∨ s.phase = .running ∧ s.ctl = .idle) : ∃ t, handlePacket p f g s = .next t := by
  rcases h with h | ⟨h, hc⟩
  · rw [handlePacket_init h]; exact hf _
  · rw [handlePacket_running h hc]; exact hg _

/-- A decoded packet is always handled where packets are read (rules R151, R152). -/
theorem runItem_completes (x : Item) {s : State} (h : s.phase = .init ∨ s.phase = .running ∧ s.ctl = .idle) :
    ∃ t, runItem x s = .next t := by
  rcases runItem_kinds x with ⟨m, fa, ts, rfl, e⟩ | ⟨n, ts, rfl, e⟩ | ⟨b, n, d, ts, rfl, e⟩ | ⟨v, n, ts, rfl, e⟩ |
    ⟨c, hx, e⟩ <;> rw [e]
  · rw [execSync_eq]
    exact handlePacket_completes (fun _ => ⟨_, rfl⟩) (fun _ => ⟨_, rfl⟩) h
  · rw [execDbr_eq]
    refine handlePacket_completes (fun _ => ⟨_, rfl⟩) (fun u => ?_) h
    by_cases hn : n = 0
    · exact ⟨_, if_pos hn⟩
    · exact ⟨_, if_neg hn⟩
  · rw [execIbr_eq]
    exact handlePacket_completes (fun _ => ⟨_, rfl⟩) (fun _ => ⟨_, rfl⟩) h
  · rw [execCorr_eq]
    exact handlePacket_completes (fun _ => ⟨_, rfl⟩) (fun _ => ⟨_, rfl⟩) h
  · rw [runOther_eq]
    exact handlePacket_completes (fun _ => ⟨_, rfl⟩) (fun _ => ⟨_, rfl⟩) h

/-- A packet read and run: either the decode fails, or its item is run in the state that reading leaves. -/
theorem readPacket_cases (s : State) :
    (∃ e r, decodePacket s.cfg s.reader = .err e r ∧
      readPacket s = .next ((s.consumed r.pos).failWith (.decode e))) ∨
    (∃ x r, decodePacket s.cfg s.reader = .ok x r ∧ readPacket s = runItem x (s.consumed r.pos)) := by
  unfold readPacket
  cases h : decodePacket s.cfg s.reader with
  | err e r => exact .inl ⟨e, r, rfl, rfl⟩
  | ok x r  => exact .inr ⟨x, r, rfl, rfl⟩

/-- Rule R154: everything a visit can do; it always answers a next state. -/
theorem visit_cases (m : VisitMode) (s : State) :
    (s.index.lookup s.currentPc = none ∧
      visit m s = .next (s.failWith (.missingInstruction s.currentPc))) ∨
    (∃ e, s.index.lookup s.currentPc = some e ∧ parcels e.len = none ∧
      visit m s = .next (s.failWith (.badInstructionLength s.currentPc e.len))) ∨
    (∃ e n, s.index.lookup s.currentPc = some e ∧ parcels e.len = some n ∧ s.remaining.toNat < n ∧
      visit m s =
        .next ((s.noteVisit s.currentPc e).failWith (.parcelUnderflow s.currentPc n s.remaining))) ∨
    (∃ e n, s.index.lookup s.currentPc = some e ∧ parcels e.len = some n ∧ n ≤ s.remaining.toNat ∧
      visitTarget m s.cfg s.currentPc e = none ∧
      visit m s = .next (((s.noteVisit s.currentPc e).takeParcels n).failWith
        (.unsupportedBranchOperand s.currentPc e.ops))) ∨
    (∃ e n pc, s.index.lookup s.currentPc = some e ∧ parcels e.len = some n ∧ n ≤ s.remaining.toNat ∧
      visitTarget m s.cfg s.currentPc e = some pc ∧
      visit m s = .next { (s.noteVisit s.currentPc e).takeParcels n with currentPc := pc }) := by
  cases hl : s.index.lookup s.currentPc with
  | none => exact .inl ⟨rfl, by simp [visit, hl]⟩
  | some e =>
    right
    cases hp : parcels e.len with
    | none => exact .inl ⟨e, rfl, hp, by simp [visit, hl, hp]⟩
    | some n =>
      right
      by_cases hn : s.remaining.toNat < n
      · exact .inl ⟨e, n, rfl, hp, hn, by simp [visit, hl, hp, hn]⟩
      · right
        cases ht : visitTarget m s.cfg s.currentPc e with
        | none => exact .inl ⟨e, n, rfl, hp, Nat.le_of_not_lt hn, ht, by simp [visit, hl, hp, hn, ht]⟩
        | some pc => exact .inr ⟨e, n, pc, rfl, hp, Nat.le_of_not_lt hn, ht, by simp [visit, hl, hp, hn, ht]⟩

/-- Rule R153: a legal length is even and nonzero, and has at least one parcel. -/
theorem parcels_eq_some_iff {len n : Nat} : parcels len = some n ↔ len ≠ 0 ∧ len % 2 = 0 ∧ n = len / 2 := by
  unfold parcels
  split
  · simp; omega
  · simp; omega

theorem parcels_eq_none_iff {len : Nat} : parcels len = none ↔ len = 0 ∨ len % 2 = 1 := by
  unfold parcels
  split <;> simp_all

theorem parcels_pos {len n : Nat} (h : parcels len = some n) : 0 < n := by
  rw [parcels_eq_some_iff] at h
  omega

/-- Rule R156: everything `ResolveDirect` can do. -/
theorem resolveDirect_cases (s : State) :
    (s.lastEntry = none ∧ resolveDirect s = .fault .noLastEntry) ∨
    (∃ e, s.lastEntry = some e ∧ operandOffset e.ops = none ∧
      resolveDirect s = .next (s.failWith (.unsupportedBranchOperand s.lastVisited e.ops))) ∨
    (∃ e off, s.lastEntry = some e ∧ operandOffset e.ops = some off ∧
      resolveDirect s = .next { s with currentPc := s.lastVisited + sextW off, ctl := .idle }) := by
  cases hl : s.lastEntry with
  | none => exact .inl ⟨rfl, by simp [resolveDirect, hl]⟩
  | some e =>
    right
    cases ho : operandOffset e.ops with
    | none => exact .inl ⟨e, rfl, ho, by simp [resolveDirect, hl, ho]⟩
    | some off => exact .inr ⟨e, off, rfl, ho, by simp [resolveDirect, hl, ho]⟩

end Sys2Proof.Machine
end

