-- ==== Sys2Proof/Laws/PerInstr.lean ====
section
/-! SUPPORT. Facts made per instruction, over its syntax and encoding. -/

namespace Sys2Proof.Laws.TcodeFirst

/-- The Tcode a configuration gives an instruction (rules R74 and R75). -/
def tcodeOf (c : Cfg) : Instr → Tcode
  | .sync _ _ _  => c.tcSync
  | .dbr _ _     => c.tcDbr
  | .ibr _ _ _ _ => c.tcIbr
  | .corr _ _ _  => c.tcCorr
  | .other2      => 2
  | .other8      => 8
  | .other11     => 11
  | .other12     => 12
  | .other27     => 27
  | .other28     => 28
  | .other29     => 29

/-- Rules R73 and R92: the encoding of a packet is its Tcode byte and what follows. -/
def Statement (i : Instr) : Prop :=
  ∀ c : Cfg, ∃ b bs, encode c i = b :: bs ∧ mdo b = tcodeOf c i

theorem sync (m : BitVec 4) (a t : Word) : Statement (.sync m a t) :=
  fun c => ⟨tcodeByte c.tcSync, _, rfl, mdo_traceByte ..⟩

theorem dbr (n t : Word) : Statement (.dbr n t) :=
  fun c => ⟨tcodeByte c.tcDbr, _, rfl, mdo_traceByte ..⟩

theorem ibr (b : BranchType) (n d t : Word) : Statement (.ibr b n d t) :=
  fun c => ⟨tcodeByte c.tcIbr, _, rfl, mdo_traceByte ..⟩

theorem corr (v : BitVec 2) (n t : Word) : Statement (.corr v n t) :=
  fun c => ⟨tcodeByte c.tcCorr, _, rfl, mdo_traceByte ..⟩

/-- A recognized-but-unhandled packet, under either policy. -/
theorem encodeOther_tcode (c : Cfg) (t : Tcode) : ∃ b bs, encodeOther c t = b :: bs ∧ mdo b = t := by
  unfold encodeOther
  cases c.unhandledPolicy
  · exact ⟨_, _, rfl, mdo_traceByte ..⟩
  · exact ⟨tcodeByte t, _, rfl, mdo_traceByte ..⟩

theorem other2 : Statement .other2 := fun c => encodeOther_tcode c 2

theorem other8 : Statement .other8 := fun c => encodeOther_tcode c 8

theorem other11 : Statement .other11 := fun c => encodeOther_tcode c 11

theorem other12 : Statement .other12 := fun c => encodeOther_tcode c 12

theorem other27 : Statement .other27 := fun c => encodeOther_tcode c 27

theorem other28 : Statement .other28 := fun c => encodeOther_tcode c 28

theorem other29 : Statement .other29 := fun c => encodeOther_tcode c 29

end Sys2Proof.Laws.TcodeFirst
end

