-- ==== Sys2Proof/Laws/Step.lean ====
section
/-! SUPPORT. What one step can do (rule R150), said once. -/

namespace Sys2Proof.Machine

/-- Where the next step reads a packet: in `INIT`, and in `RUNNING` between packets before the end of the stream. -/
def State.Reading (s : State) : Prop :=
  s.phase = .init ∨ s.phase = .running ∧ s.ctl = .idle ∧ s.pos ≠ s.trace.length

theorem State.Reading.handles {s : State} (h : s.Reading) (p : Nat) :
    (s.consumed p).phase = .init ∨ (s.consumed p).phase = .running ∧ (s.consumed p).ctl = .idle :=
  h.imp id fun h => ⟨h.1, h.2.1⟩

theorem step_badConfig {s : State} (h : s.cfg.wf = false) : step s = .refused .badConfig := by
  simp [step, engineStep, h]

theorem step_reading {s : State} (hw : s.cfg.wf = true) (h : s.Reading) : step s = readPacket s := by
  rcases h with h | ⟨h, hc, hp⟩
  · simp [step, engineStep, hw, h]
  · simp [step, engineStep, hw, h, runningStep, hc, runStep, hp]

theorem step_endOfStream {s : State} (hw : s.cfg.wf = true) (h : s.phase = .running) (hc : s.ctl = .idle)
    (hp : s.pos = s.trace.length) :
    step s = .next { s with endReason := .endOfStream, phase := .terminal } := by
  simp [step, engineStep, hw, h, runningStep, hc, runStep, hp, endOfStream]

theorem step_visit {s : State} (hw : s.cfg.wf = true) (h : s.phase = .running) (hc : s.ctl ≠ .idle)
    (hr : s.remaining ≠ 0) : step s = visit (modeOf s.ctl) s := by
  simp only [step, engineStep, hw, h, if_true, runningStep, if_neg hc, if_neg hr]

theorem step_resolve {s : State} (hw : s.cfg.wf = true) (h : s.phase = .running) (hc : s.ctl ≠ .idle)
    (hr : s.remaining = 0) : step s = resolve s := by
  simp only [step, engineStep, hw, h, if_true, runningStep, if_neg hc, if_pos hr]

theorem step_terminal {s : State} (hw : s.cfg.wf = true) (h : s.phase = .terminal) : step s = .fault .runEnded := by
  simp [step, engineStep, hw, h]

theorem step_failed {s : State} (hw : s.cfg.wf = true) (h : s.phase = .failed) : step s = .fault .runFailed := by
  simp [step, engineStep, hw, h]

/-- Every step that answers a next state reads a packet, ends the stream, makes a visit or resolves a walk. -/
theorem step_next_cases {s t : State} (h : step s = .next t) :
    s.cfg.wf = true ∧
    ((s.Reading ∧ readPacket s = .next t) ∨
      (s.phase = .running ∧ s.ctl = .idle ∧ s.pos = s.trace.length ∧
        t = { s with endReason := .endOfStream, phase := .terminal }) ∨
      (s.phase = .running ∧ s.ctl ≠ .idle ∧ s.remaining ≠ 0 ∧ visit (modeOf s.ctl) s = .next t) ∨
      (s.phase = .running ∧ s.ctl ≠ .idle ∧ s.remaining = 0 ∧ resolve s = .next t)) := by
  cases hw : s.cfg.wf with
  | false => rw [step_badConfig hw] at h; cases h
  | true =>
    refine ⟨rfl, ?_⟩
    cases hph : s.phase with
    | init =>
      have hr : s.Reading := .inl hph
      exact .inl ⟨hr, step_reading hw hr ▸ h⟩
    | running =>
      by_cases hc : s.ctl = .idle
      · by_cases hp : s.pos = s.trace.length
        · rw [step_endOfStream hw hph hc hp] at h
          injection h with h
          exact .inr (.inl ⟨rfl, hc, hp, h.symm⟩)
        · have hr : s.Reading := .inr ⟨hph, hc, hp⟩
          exact .inl ⟨hr, step_reading hw hr ▸ h⟩
      · by_cases hr : s.remaining = 0
        · exact .inr (.inr (.inr ⟨rfl, hc, hr, step_resolve hw hph hc hr ▸ h⟩))
        · exact .inr (.inr (.inl ⟨rfl, hc, hr, step_visit hw hph hc hr ▸ h⟩))
    | terminal => rw [step_terminal hw hph] at h; cases h
    | failed => rw [step_failed hw hph] at h; cases h

/-- Everything a step that answers a next state can do, one case per effect of rules R151 to R161. -/
inductive StepEffect (s : State) : State → Prop
  /-- A decode error (rules R128, R211). -/
  | decodeFails {e r} (hr : s.Reading) (hd : decodePacket s.cfg s.reader = .err e r) :
      StepEffect s ((s.consumed r.pos).failWith (.decode e))
  /-- The first packet is SYNC (rule R151). -/
  | enters {m fa ts r} (hp : s.phase = .init) (hd : decodePacket s.cfg s.reader = .ok (.row (.sync m fa ts)) r) :
      StepEffect s (((s.consumed r.pos).accept (Instr.sync m fa ts).packet).enterAt (unscale fa))
  /-- The first packet is not SYNC (rules R151, R206). -/
  | expectsSync {x r} (hp : s.phase = .init) (hd : decodePacket s.cfg s.reader = .ok x r)
      (hk : x.packet.kind ≠ .sync) :
      StepEffect s (((s.consumed r.pos).accept x.packet).failWith (.expectedSync x.packet.kind))
  /-- An empty direct branch (rules R152, R208). -/
  | emptyDirect {ts r} (hp : s.phase = .running) (hc : s.ctl = .idle) (hl : s.pos ≠ s.trace.length)
      (hd : decodePacket s.cfg s.reader = .ok (.row (.dbr 0 ts)) r) :
      StepEffect s (((s.consumed r.pos).accept (Instr.dbr 0 ts).packet).failWith .emptyDirectBranch)
  /-- A direct walk starts (rule R152). -/
  | startsDirect {n ts r} (hp : s.phase = .running) (hc : s.ctl = .idle) (hl : s.pos ≠ s.trace.length) (hn : n ≠ 0)
      (hd : decodePacket s.cfg s.reader = .ok (.row (.dbr n ts)) r) :
      StepEffect s (((s.consumed r.pos).accept (Instr.dbr n ts).packet).startWalk .walkDirect n)
  /-- An indirect walk starts (rule R152). -/
  | startsIndirect {b n d ts r} (hp : s.phase = .running) (hc : s.ctl = .idle) (hl : s.pos ≠ s.trace.length)
      (hd : decodePacket s.cfg s.reader = .ok (.row (.ibr b n d ts)) r) :
      StepEffect s (((s.consumed r.pos).accept (Instr.ibr b n d ts).packet).startWalk .walkIndirect n)
  /-- The last walk starts (rule R152). -/
  | startsCorr {v n ts r} (hp : s.phase = .running) (hc : s.ctl = .idle) (hl : s.pos ≠ s.trace.length)
      (hd : decodePacket s.cfg s.reader = .ok (.row (.corr v n ts)) r) :
      StepEffect s (((s.consumed r.pos).accept (Instr.corr v n ts).packet).startWalk .walkCorr n)
  /-- A packet is ignored (rule R160). -/
  | ignores {x r} (hp : s.phase = .running) (hc : s.ctl = .idle) (hl : s.pos ≠ s.trace.length)
      (hd : decodePacket s.cfg s.reader = .ok x r) (hk : x.packet.kind = .sync ∨ ∃ c, x.packet.kind = .other c) :
      StepEffect s (((s.consumed r.pos).accept x.packet).ignore x.packet.kind)
  /-- The stream ends at a packet boundary (rule R152). -/
  | endsStream (hp : s.phase = .running) (hc : s.ctl = .idle) (hl : s.pos = s.trace.length) :
      StepEffect s { s with endReason := .endOfStream, phase := .terminal }
  /-- A visit misses the Index (rules R154, R204). -/
  | visitMisses (hp : s.phase = .running) (hc : s.ctl ≠ .idle) (hr : s.remaining ≠ 0)
      (hx : s.index.lookup s.currentPc = none) : StepEffect s (s.failWith (.missingInstruction s.currentPc))
  /-- A visit finds no whole parcels (rules R153, R209). -/
  | visitBadLength {e} (hp : s.phase = .running) (hc : s.ctl ≠ .idle) (hr : s.remaining ≠ 0)
      (hx : s.index.lookup s.currentPc = some e) (hn : parcels e.len = none) :
      StepEffect s (s.failWith (.badInstructionLength s.currentPc e.len))
  /-- A visit passes the count (rules R154, R207). -/
  | visitUnderflows {e n} (hp : s.phase = .running) (hc : s.ctl ≠ .idle) (hr : s.remaining ≠ 0)
      (hx : s.index.lookup s.currentPc = some e) (hn : parcels e.len = some n) (hlt : s.remaining.toNat < n) :
      StepEffect s ((s.noteVisit s.currentPc e).failWith (.parcelUnderflow s.currentPc n s.remaining))
  /-- A visited jump has no offset (rules R161, R205). -/
  | visitBadOperand {e n} (hp : s.phase = .running) (hc : s.ctl ≠ .idle) (hr : s.remaining ≠ 0)
      (hx : s.index.lookup s.currentPc = some e) (hn : parcels e.len = some n) (hle : n ≤ s.remaining.toNat)
      (ht : visitTarget (modeOf s.ctl) s.cfg s.currentPc e = none) :
      StepEffect s (((s.noteVisit s.currentPc e).takeParcels n).failWith
        (.unsupportedBranchOperand s.currentPc e.ops))
  /-- A visit completes (rule R154). -/
  | visits {e n pc} (hp : s.phase = .running) (hc : s.ctl ≠ .idle) (hr : s.remaining ≠ 0)
      (hx : s.index.lookup s.currentPc = some e) (hn : parcels e.len = some n) (hle : n ≤ s.remaining.toNat)
      (ht : visitTarget (modeOf s.ctl) s.cfg s.currentPc e = some pc) :
      StepEffect s { (s.noteVisit s.currentPc e).takeParcels n with currentPc := pc }
  /-- A direct branch has no offset (rules R156, R205). -/
  | directFails {e} (hp : s.phase = .running) (hc : s.ctl = .walkDirect) (hr : s.remaining = 0)
      (he : s.lastEntry = some e) (ho : operandOffset e.ops = none) :
      StepEffect s (s.failWith (.unsupportedBranchOperand s.lastVisited e.ops))
  /-- A direct branch resolves (rule R156). -/
  | directResolves {e off} (hp : s.phase = .running) (hc : s.ctl = .walkDirect) (hr : s.remaining = 0)
      (he : s.lastEntry = some e) (ho : operandOffset e.ops = some off) :
      StepEffect s { s with currentPc := s.lastVisited + sextW off, ctl := .idle }
  /-- An indirect branch resolves (rule R158). -/
  | indirectResolves (hp : s.phase = .running) (hc : s.ctl = .walkIndirect) (hr : s.remaining = 0) :
      StepEffect s { s with
        currentPc := indirectTarget s.pkt.differentialAddress s.lastAbsoluteAddress
        lastAbsoluteAddress := indirectTarget s.pkt.differentialAddress s.lastAbsoluteAddress
        ctl := .idle }
  /-- The trace ends (rule R159). -/
  | corrEnds (hp : s.phase = .running) (hc : s.ctl = .walkCorr) (hr : s.remaining = 0) :
      StepEffect s { s with endReason := .correlation, phase := .terminal, ctl := .idle }

/-- Every step that answers a next state has one of the effects of `StepEffect`. -/
theorem step_effect {s t : State} (h : step s = .next t) : s.cfg.wf = true ∧ StepEffect s t := by
  obtain ⟨hw, ⟨hr, h⟩ | ⟨hp, hc, hl, rfl⟩ | ⟨hp, hc, hr, h⟩ | ⟨hp, hc, hr, h⟩⟩ := step_next_cases h
  · refine ⟨hw, ?_⟩
    rcases readPacket_cases s with ⟨e, r, hd, h'⟩ | ⟨x, r, hd, h'⟩ <;> rw [h'] at h
    · injection h with h
      exact h ▸ .decodeFails hr hd
    · have notInit : s.phase = .running → s.pos ≠ s.trace.length := fun hp =>
        hr.elim (fun hi => by rw [hi] at hp; cases hp) fun hr => hr.2.2
      rcases runItem_next_cases h with ⟨hp, ⟨m, fa, ts, rfl, rfl⟩ | ⟨hk, rfl⟩⟩ |
        ⟨hp, hc, ⟨ts, rfl, rfl⟩ | ⟨n, ts, hn, rfl, rfl⟩ | ⟨b, n, d, ts, rfl, rfl⟩ | ⟨v, n, ts, rfl, rfl⟩ | ⟨hk, rfl⟩⟩
      · exact .enters hp hd
      · exact .expectsSync hp hd hk
      · exact .emptyDirect hp hc (notInit hp) hd
      · exact .startsDirect hp hc (notInit hp) hn hd
      · exact .startsIndirect hp hc (notInit hp) hd
      · exact .startsCorr hp hc (notInit hp) hd
      · exact .ignores hp hc (notInit hp) hd hk
  · exact ⟨hw, .endsStream hp hc hl⟩
  · refine ⟨hw, ?_⟩
    rcases visit_cases (modeOf s.ctl) s with ⟨hx, e⟩ | ⟨_, hx, hn, e⟩ | ⟨_, _, hx, hn, hlt, e⟩ |
      ⟨_, _, hx, hn, hle, ht, e⟩ | ⟨_, _, _, hx, hn, hle, ht, e⟩ <;> rw [e] at h <;> injection h with h <;> subst h
    · exact .visitMisses hp hc hr hx
    · exact .visitBadLength hp hc hr hx hn
    · exact .visitUnderflows hp hc hr hx hn hlt
    · exact .visitBadOperand hp hc hr hx hn hle ht
    · exact .visits hp hc hr hx hn hle ht
  · refine ⟨hw, ?_⟩
    unfold resolve at h
    cases hk : s.ctl with
    | idle => exact absurd hk hc
    | walkDirect =>
      simp only [hk] at h
      rcases resolveDirect_cases s with ⟨-, e⟩ | ⟨_, he, ho, e⟩ | ⟨_, _, he, ho, e⟩ <;> rw [e] at h
      · cases h
      · injection h with h
        exact h ▸ .directFails hp hk hr he ho
      · injection h with h
        exact h ▸ .directResolves hp hk hr he ho
    | walkIndirect =>
      simp only [hk] at h
      injection h with h
      exact h ▸ .indirectResolves hp hk hr
    | walkCorr =>
      simp only [hk] at h
      injection h with h
      exact h ▸ .corrEnds hp hk hr

end Sys2Proof.Machine
end

