-- ==== Sys2Proof/Tests/Slice0.lean ====
section
/-! SUPPORT. The model's own tests. Expected results are the spec's: the numbers (K, B, V, E, S) are rows of
95_test_vectors.md. The `witness_` theorems show that the hypotheses of each statement can be met together. -/

namespace Sys2Proof.Tests

open Sys2Proof.Machine Sys2Proof.Claims

/-! ### Helpers -/

/-- The next state, if there is one. -/
def nextOf : Result → Option State
  | .next s    => some s
  | .fault _   => none
  | .refused _ => none

/-- One field of the state after a step. -/
def after {α : Type} (f : State → α) (s : State) : Option α := (nextOf (step s)).map f

/-- The cause, packet index and offset of the error a step ends in. -/
def failure (s : State) : Option (Option FailRecord) := after (·.fail) s

/-- Decoding under the default configuration from the start of a stream. -/
def decodeBytes (bs : List Byte) : Read Item := decodePacket Cfg.default ⟨0, bs⟩

def beq : Entry := ⟨['b', 'e', 'q'], ['a', '0', ',', ' ', 'a', '1', ',', ' ', '0', 'x', '2', '0'], 4⟩

def jal : Entry := ⟨['j', 'a', 'l'], ['r', 'a', ',', ' ', '0', 'x', '1', '0'], 4⟩

def jalNoOffset : Entry := ⟨['j', 'a', 'l'], ['r', 'a'], 4⟩

def addi : Entry := ⟨['a', 'd', 'd', 'i'], ['a', '0', ',', ' ', '1'], 4⟩

def oddLength : Entry := ⟨['x'], [], 3⟩

/-- `SYNC` with `faddr = 0x800` (K1). -/
def sync800 : List Byte := [0x24, 0x14, 0x00, 0x21, 0x03]

/-- The Packet of `DBR` with count 2. -/
def dbr2 : Packet := (Instr.dbr 2 0).packet

/-- A core at reset with an Index and a trace. -/
def launched (x : Index) (t : List Byte) : State := State.launch Cfg.default x t

/-- A core between packets, after `sync800`: the program counter is `0x1000`. -/
def running (x : Index) (t : List Byte) : State :=
  { launched x (sync800 ++ t) with
      phase := .running, pos := 5, packetsProcessed := 1, currentPc := 0x1000, lastAbsoluteAddress := 0x1000,
      pkt := (Instr.sync 5 0x800 0).packet, events := [.decoded (Instr.sync 5 0x800 0).packet] }

/-- A core in a walk with `n` parcels left. -/
def walking (ctl : Ctl) (n : Word) (x : Index) : State :=
  { running x [] with ctl := ctl, remaining := n, packetsProcessed := 2 }

/-- A core at the end of a direct walk whose last entry, at `0x1000`, is `e`. -/
def resolving (e : Entry) : State :=
  { walking .walkDirect 0 [(0x1000, e)] with currentPc := 0x1004, lastVisited := 0x1000, lastEntry := some e }

/-! ### Well-formed and ill-formed packets and configurations -/

theorem test_wf_sync : Instr.wf Cfg.default (.sync 5 0 0) = true := by decide
theorem test_illformed_marker : Instr.wf Cfg.default (.sync 6 0 0) = false := by decide
theorem test_decoder_refuses_marker :
    decodeBytes [0x24, 0x18, 0x00, 0x21, 0x03] = .err (.syncMarkerMismatch 6) ⟨4, [0x03]⟩ := by decide

/-- A configuration with no recognized-but-unhandled Tcode. -/
def noOther : Cfg := { Cfg.default with tcOther := [] }

theorem test_illformed_other :
    [Instr.other2, .other8, .other11, .other12, .other27, .other28, .other29].map (Instr.wf noOther) =
      List.replicate 7 false := by decide
theorem test_decoder_refuses_other :
    decodePacket noOther ⟨0, [0x0B]⟩ = .err (.invalidTcode 2) ⟨1, []⟩ := by decide
theorem test_cfg_default : Cfg.default.wf = true := by decide
theorem test_cfg_equal_tags : Cfg.wf { Cfg.default with tagEom := 0b01 } = false := by decide
theorem test_cfg_equal_tcodes : Cfg.wf { Cfg.default with tcDbr := 9 } = false := by decide
theorem test_cfg_handled_and_other : Cfg.wf { Cfg.default with tcOther := [33] } = false := by decide

/-! ### Decoding, from words written out bit by bit -/

/-- K5. Tcode 9 tagged 00; `A[0]` is flags 01, marker 0101; four more groups; then `ts` in two groups. -/
theorem test_decode_sync :
    decodeBytes [0b001001_00, 0b01_0101_00, 0b010001_00, 0b100011_00, 0b000100_01, 0b000001_00, 0b000001_11] =
      .ok (.row (.sync 5 0x12345 0x41)) ⟨7, []⟩ := by decide

/-- K9. -/
theorem test_decode_dbr :
    decodeBytes [0b000011_00, 0b000010_01, 0b000000_00, 0b000000_00, 0b000001_11] =
      .ok (.row (.dbr 2 0x1000)) ⟨5, []⟩ := by decide

/-- K15. `A[0]` is branch type 10, count nibble 0001. -/
theorem test_decode_ibr :
    decodeBytes [0b000100_00, 0b10_0001_00, 0b000001_01, 0b000001_01, 0b000101_11] =
      .ok (.row (.ibr .exception 17 1 5)) ⟨5, []⟩ := by decide

/-- K19. `A[0]` is event code 11, count nibble 0001. -/
theorem test_decode_corr :
    decodeBytes [0b100001_00, 0b11_0001_00, 0b000001_01, 0b000000_11] =
      .ok (.row (.corr 3 17 0)) ⟨4, []⟩ := by decide

/-- K20. -/
theorem test_decode_other2 : decodeBytes [0b000010_00, 0b010000_01, 0b000000_11] = .ok (.row .other2) ⟨3, []⟩ := by
  decide
theorem test_decode_other8 : decodeBytes [0b001000_11] = .ok (.row .other8) ⟨1, []⟩ := by decide
theorem test_decode_other11 : decodeBytes [0b001011_11] = .ok (.row .other11) ⟨1, []⟩ := by decide
theorem test_decode_other12 : decodeBytes [0b001100_11] = .ok (.row .other12) ⟨1, []⟩ := by decide
theorem test_decode_other27 : decodeBytes [0b011011_11] = .ok (.row .other27) ⟨1, []⟩ := by decide
theorem test_decode_other28 : decodeBytes [0b011100_11] = .ok (.row .other28) ⟨1, []⟩ := by decide
theorem test_decode_other29 : decodeBytes [0b011101_11] = .ok (.row .other29) ⟨1, []⟩ := by decide

/-- The four branch-type codes (R84). -/
theorem test_branch_types :
    [(0b00 : BitVec 2), 0b01, 0b10, 0b11].map branchTypeOfCode = [.indirect, .trap, .exception, .interrupt] := by
  decide

/-- K10: the tag of a handled kind's Tcode byte is ignored. -/
theorem test_decode_tcode_tag : decodeBytes [0x0F, 0x09, 0x03] = .ok (.row (.dbr 2 0)) ⟨3, []⟩ := by decide

/-- K22. -/
theorem test_decode_tcode_only :
    decodePacket { Cfg.default with unhandledPolicy := .tcodeOnly } ⟨0, [0x08, 0x41, 0x03]⟩ =
      .ok (.row .other2) ⟨1, [0x41, 0x03]⟩ := by decide

/-- A member of `TC_OTHER` that the opcode table has no row for. -/
theorem test_decode_unlisted :
    decodePacket { Cfg.default with tcOther := [63] } ⟨0, [0xFF]⟩ = .ok (.unlisted 63) ⟨1, []⟩ := by decide

/-- K23, K24, K26. -/
theorem test_decode_illegal : decodeBytes [0xFC] = .err (.invalidTcode 63) ⟨1, []⟩ := by decide
theorem test_decode_zero : decodeBytes [0x00] = .err (.invalidTcode 0) ⟨1, []⟩ := by decide
theorem test_decode_truncated : decodeBytes [0x24, 0x14, 0x00] = .err (.unexpectedEof 3) ⟨3, []⟩ := by decide

/-- P-a and P-b: which error wins. -/
theorem test_priority_eof : decodeBytes [0x24, 0x18] = .err (.unexpectedEof 2) ⟨2, []⟩ := by decide
theorem test_priority_marker : decodeBytes [0x24, 0x19, 0x03] = .err (.syncMarkerMismatch 6) ⟨2, [0x03]⟩ := by decide

/-- K25, under both policies. -/
theorem test_decode_overflow :
    decodeBytes (0x0C :: List.replicate 10 0x00 ++ [0x41, 0x03]) = .err (.fieldOverflow 12) ⟨12, [0x03]⟩ := by decide
theorem test_decode_truncates :
    decodePacket { Cfg.default with fieldOverflow := .truncate } ⟨0, 0x0C :: List.replicate 10 0x00 ++ [0x41, 0x03]⟩ =
      .ok (.row (.dbr 0 0)) ⟨13, []⟩ := by decide

/-- B4 and B5: the other terminator, and `0b10`, do not end a run. -/
theorem test_run_eof : readFieldUntil 0b01 ⟨0, [0x03, 0x05, 0x07]⟩ = .ok [0x03, 0x05] ⟨2, [0x07]⟩ := by decide
theorem test_run_eom : readFieldUntil 0b11 ⟨0, [0x01, 0x02, 0x03]⟩ = .ok [0x01, 0x02, 0x03] ⟨3, []⟩ := by decide

/-- B12: payload 15 at offset 60 fits. -/
theorem test_pack6_top :
    pack6 Cfg.default (List.replicate 10 0x00 ++ [0x3D]) ⟨11, []⟩ = .ok 0xF000000000000000 ⟨11, []⟩ := by decide

/-- The images of 30_encoding.md rule R92. -/
theorem test_encode_sync : encode Cfg.default (.sync 5 0x800 0) = sync800 := by decide
theorem test_encode_ibr : encode Cfg.default (.ibr .indirect 5 0x800 0) = [0x10, 0x15, 0x00, 0x81, 0x03] := by decide

/-! ### Operand text (the tables of 95_test_vectors.md 2.3) -/

theorem test_offset_hex : parseOffset ['-', '0', 'x', '4'] = some (-4) := by decide
theorem test_offset_mixed_case : parseOffset ['0', 'x', 'A', 'B', 'c', 'd', 'e', 'f'] = some 11259375 := by decide
theorem test_offset_leading_zero : parseOffset ['0', '1', '0'] = some 10 := by decide
theorem test_offset_refused :
    [['+', '8'], ['0', 'X', '1', '0'], ['0', 'x'], [], ['-'], ['1', ' ', '2'], ['0', 'x', '-', '1']].map parseOffset =
      List.replicate 7 none := by decide
theorem test_offset_range :
    ["9223372036854775807", "9223372036854775808", "-0x8000000000000000"].map (fun s => parseOffset s.toList) =
      [some (2 ^ 63 - 1), none, some (-2 ^ 63)] := by decide
theorem test_operand_last_token :
    operandOffset ['a', '0', ',', ' ', 'a', '1', ',', ' ', '-', '0', 'x', '4'] = some (-4) := by decide
theorem test_operand_trimmed : operandOffset ['a', '0', ' ', ',', ' ', '1', '2', ' '] = some 12 := by decide
theorem test_operand_tabs : operandOffset ['\t', '-', '1', '2', '\t'] = some (-12) := by decide
theorem test_operand_empty_token : operandOffset ['a', '0', ',', 'a', '1', ','] = none := by decide
theorem test_unscale_loses_top : unscale 0x8000000000000001 = 2 := by decide

/-- S9. -/
theorem test_indirect_target : indirectTarget 0x55 0xAA = 0x1FE := by decide

/-! ### One step -/

/-- V1, its five steps one at a time. -/
theorem test_init : after (fun s => (s.phase, s.currentPc, s.lastAbsoluteAddress, s.pos)) (launched [] sync800) =
    some (.running, 0x1000, 0x1000, 5) := by decide
theorem test_dbr : after (fun s => (s.ctl, s.remaining, s.packetsProcessed)) (running [] [0x0C, 0x09, 0x03]) =
    some (.walkDirect, 2, 2) := by decide
theorem test_visit : after (fun s => (s.records, s.remaining, s.currentPc, s.lastVisited))
    (walking .walkDirect 2 [(0x1000, beq)]) = some ([⟨0x1000, beq⟩], 0, 0x1004, 0x1000) := by decide
theorem test_resolve_direct : after (fun s => (s.currentPc, s.ctl)) (resolving beq) = some (0x1020, .idle) := by decide
theorem test_end_of_stream : after (fun s => (s.phase, s.endReason)) (running [] []) =
    some (.terminal, .endOfStream) := by decide

/-- V4 and P3: a direct walk steps a jump by its length, an indirect walk follows it. -/
theorem test_direct_steps_jump : after (·.currentPc) (walking .walkDirect 4 [(0x1000, jal)]) = some 0x1004 := by decide
theorem test_indirect_follows_jump : after (·.currentPc) (walking .walkIndirect 4 [(0x1000, jal)]) = some 0x1010 := by
  decide

/-- V5: `unscale(0x800 ^ 0x1000)`. -/
theorem test_ibr : after (fun s => (s.ctl, s.remaining, s.pkt.differentialAddress))
    (running [] [0x10, 0x11, 0x00, 0x81, 0x03]) = some (.walkIndirect, 4, 0x800) := by decide
theorem test_resolve_indirect : after (fun s => (s.currentPc, s.lastAbsoluteAddress, s.ctl))
    { walking .walkIndirect 0 [] with pkt := (Instr.ibr .indirect 4 0x800 0).packet } =
      some (0x3000, 0x3000, .idle) := by decide

/-- V9. -/
theorem test_corr : after (fun s => (s.ctl, s.pos)) (running [] [0x84, 0x01, 0x03, 0x0C, 0x09, 0x03]) =
    some (.walkCorr, 8) := by decide
theorem test_end_corr : after (fun s => (s.phase, s.endReason, s.ctl, s.currentPc)) (walking .walkCorr 0 []) =
    some (.terminal, .correlation, .idle, 0x1000) := by decide

/-- V11 and V12: what is ignored. -/
theorem test_second_sync : after (fun s => (s.currentPc, s.packetsProcessed, s.events.getLast?))
    (running [] [0x24, 0x14, 0x00, 0x05, 0x03]) = some (0x1000, 2, some (.ignored .sync)) := by decide
theorem test_other2 : after (fun s => (s.events.drop 1, s.pos)) (running [] [0x0B]) =
    some ([.decoded (otherPacket 2), .ignored (.other 2)], 6) := by decide
theorem test_other8 : after (·.events.getLast?) (running [] [0x23]) = some (some (.ignored (.other 8))) := by decide
theorem test_other11 : after (·.events.getLast?) (running [] [0x2F]) = some (some (.ignored (.other 11))) := by decide
theorem test_other12 : after (·.events.getLast?) (running [] [0x33]) = some (some (.ignored (.other 12))) := by decide
theorem test_other27 : after (·.events.getLast?) (running [] [0x6F]) = some (some (.ignored (.other 27))) := by decide
theorem test_other28 : after (·.events.getLast?) (running [] [0x73]) = some (some (.ignored (.other 28))) := by decide
theorem test_other29 : after (·.events.getLast?) (running [] [0x77]) = some (some (.ignored (.other 29))) := by decide

/-! ### Errors -/

theorem test_E1 : failure (launched [] []) = some (some ⟨.decode (.unexpectedEof 0), 0, 0⟩) := by decide
theorem test_E2 : failure { running [] [0x24, 0x0C, 0x00, 0x05, 0x03] with pos := 5 } =
    some (some ⟨.decode (.syncMarkerMismatch 3), 1, 5⟩) := by decide
theorem test_E3 : failure (running [] [0xFC]) = some (some ⟨.decode (.invalidTcode 63), 1, 5⟩) := by decide
theorem test_E4 : failure (walking .walkDirect 2 []) = some (some ⟨.missingInstruction 0x1000, 1, 0⟩) := by decide
theorem test_E5 : failure (resolving jalNoOffset) =
    some (some ⟨.unsupportedBranchOperand 0x1000 ['r', 'a'], 1, 0⟩) := by decide
theorem test_E5b : after (fun s => (s.fail, s.records.length)) (walking .walkIndirect 2 [(0x1000, jalNoOffset)]) =
    some (some ⟨.unsupportedBranchOperand 0x1000 ['r', 'a'], 1, 0⟩, 1) := by decide
theorem test_E6 : failure (launched [] [0x0C, 0x09, 0x03]) = some (some ⟨.expectedSync .dbr, 0, 0⟩) := by decide
theorem test_E7 : after (fun s => (s.fail, s.records.length)) (walking .walkDirect 1 [(0x1000, addi)]) =
    some (some ⟨.parcelUnderflow 0x1000 2 1, 1, 0⟩, 1) := by decide
theorem test_E8 : failure (running [] [0x0C, 0x01, 0x03]) = some (some ⟨.emptyDirectBranch, 1, 5⟩) := by decide
theorem test_E9 : after (fun s => (s.fail, s.records.length)) (walking .walkDirect 2 [(0x1000, oddLength)]) =
    some (some ⟨.badInstructionLength 0x1000 3, 1, 0⟩, 0) := by decide
theorem test_E10 : failure (running [] [0x0C, 4, 0, 0, 0, 0, 0, 0, 0, 0, 0, 0x41, 0x03]) =
    some (some ⟨.decode (.fieldOverflow 17), 1, 5⟩) := by decide

/-! ### Table words -/

theorem test_table_words :
    [0x24, 0x0C, 0x10, 0x84, 0x08, 0x20, 0x2C, 0x30, 0x6C, 0x70, 0x74].map (decodeTableWord 8) =
      [some (.sync 5 0 0), some (.dbr 0 0), some (.ibr .indirect 0 0 0), some (.corr 0 0 0), some .other2, some .other8,
        some .other11, some .other12, some .other27, some .other28, some .other29] := by decide
theorem test_table_illegal : decodeTableWord 8 0x00 = none := by decide
theorem test_fetch_word : after (fun s => (s.phase, s.pkt)) (State.reset.withFetchWord 8 0x24) =
    some (.running, (Instr.sync 5 0 0).packet) := by decide
theorem test_fetch_word_running : after (fun s => (s.ctl, s.pkt)) ((walking .walkDirect 2 []).withFetchWord 8 0x84) =
    some (.walkCorr, (Instr.corr 0 0 0).packet) := by decide

/-! ### Witnesses: the hypotheses of each statement, met together -/

theorem witness_FieldReadStopsAtItsTerminator :
    IsRun 0b01 [0x21] ∧ IsRun 0b01 [0x03, 0x05] ∧ IsRun 0b11 [0x01, 0x02, 0x03] ∧
    (∀ b ∈ ([0x00, 0x02, 0x03] : List Byte), b.toNat % 4 ≠ (0b01 : Tag).toNat) :=
  ⟨⟨[], 0x21, rfl, by decide, by decide⟩, ⟨[0x03], 0x05, rfl, by decide, by decide⟩,
    ⟨[0x01, 0x02], 0x03, rfl, by decide, by decide⟩, by decide⟩

/-- B12, B13: a value just below `2^64` and one at it. -/
theorem witness_PackedFieldValue :
    fieldValue 0 6 (List.replicate 10 0x00 ++ [0x3D]) < 2 ^ 64 ∧
    2 ^ 64 ≤ fieldValue 0 6 (List.replicate 10 0x00 ++ [0x41]) ∧ Cfg.default.fieldOverflow = .fault ∧
    ([0x03] : List Byte) ≠ [] := by decide

theorem witness_FieldRoundTrip : ∀ k ∈ [2, 4, 6], k = 2 ∨ k = 4 ∨ k = 6 := by decide

/-- The boundary values 63 and 64, and a run that carries 64 with a zero group to spare. -/
theorem witness_CanonicalRunIsShortest :
    2 ≤ 6 ∧ (63 : Word).toNat < 2 ^ 6 ∧ ¬ (64 : Word).toNat < 2 ^ 6 ∧
    IsRun 0b01 [0x00, 0x06, 0x01] ∧ 0 < 2 ^ 6 ∧ fieldValue 0 6 [0x00, 0x06, 0x01] = (64 : Word).toNat :=
  ⟨by decide, by decide, by decide, ⟨[0x00, 0x06], 0x01, rfl, by decide, by decide⟩, by decide, by decide⟩

/-- Runs of the default configuration. -/
theorem eofRun : IsRun Cfg.default.tagEof [0x14, 0x00, 0x21] := ⟨[0x14, 0x00], 0x21, rfl, by decide, by decide⟩

theorem eofByte : IsRun Cfg.default.tagEof [0x19] := ⟨[], 0x19, rfl, by decide, by decide⟩

theorem eomByte : IsRun Cfg.default.tagEom [0x03] := ⟨[], 0x03, rfl, by decide, by decide⟩

/-- K1 and priority vector P-b. -/
theorem witness_SyncLayout :
    Cfg.default.wf = true ∧ (0x24 : Byte).toNat / 4 = Cfg.default.tcSync.toNat ∧
    (IsRun Cfg.default.tagEof [0x14, 0x00, 0x21] ∧ low4 [0x14, 0x00, 0x21] = Cfg.default.syncMarker.toNat ∧
      IsRun Cfg.default.tagEom [0x03] ∧ Fits Cfg.default (fieldValue (high2 [0x14, 0x00, 0x21]) 2 [0x14, 0x00, 0x21]) ∧
      Fits Cfg.default (fieldValue (payload [0x03] 0) 6 [0x03])) ∧
    IsRun Cfg.default.tagEof [0x19] ∧ low4 [0x19] ≠ Cfg.default.syncMarker.toNat :=
  ⟨by decide, by decide, ⟨eofRun, by decide, eomByte, .inr (by decide), .inr (by decide)⟩, eofByte, by decide⟩

theorem witness_DbrLayout :
    Cfg.default.wf = true ∧ (0x0C : Byte).toNat / 4 = Cfg.default.tcDbr.toNat ∧
    IsRun Cfg.default.tagEof [0x14, 0x00, 0x21] ∧ IsRun Cfg.default.tagEom [0x03] ∧
    Fits Cfg.default (fieldValue (payload [0x14, 0x00, 0x21] 0) 6 [0x14, 0x00, 0x21]) ∧
    Fits Cfg.default (fieldValue (payload [0x03] 0) 6 [0x03]) :=
  ⟨by decide, by decide, eofRun, eomByte, .inr (by decide), .inr (by decide)⟩

/-- The four branch-type codes in `A[0]`. -/
theorem witness_IbrLayout :
    Cfg.default.wf = true ∧ (0x10 : Byte).toNat / 4 = Cfg.default.tcIbr.toNat ∧
    IsRun Cfg.default.tagEof [0x14, 0x00, 0x21] ∧ IsRun Cfg.default.tagEof [0x19] ∧ IsRun Cfg.default.tagEom [0x03] ∧
    Fits Cfg.default (fieldValue (low4 [0x14, 0x00, 0x21]) 4 [0x14, 0x00, 0x21]) ∧
    Fits Cfg.default (fieldValue (payload [0x19] 0) 6 [0x19]) ∧
    Fits Cfg.default (fieldValue (payload [0x03] 0) 6 [0x03]) ∧
    high2 [0x19] = 0 ∧ high2 [0x41] = 1 ∧ high2 [0x81] = 2 ∧ high2 [0xC1] = 3 :=
  ⟨by decide, by decide, eofRun, eofByte, eomByte, .inr (by decide), .inr (by decide), .inr (by decide), by decide⟩

theorem witness_CorrLayout :
    Cfg.default.wf = true ∧ (0x84 : Byte).toNat / 4 = Cfg.default.tcCorr.toNat ∧
    IsRun Cfg.default.tagEof [0x14, 0x00, 0x21] ∧ IsRun Cfg.default.tagEom [0x03] ∧
    Fits Cfg.default (fieldValue (low4 [0x14, 0x00, 0x21]) 4 [0x14, 0x00, 0x21]) ∧
    Fits Cfg.default (fieldValue (payload [0x03] 0) 6 [0x03]) :=
  ⟨by decide, by decide, eofRun, eomByte, .inr (by decide), .inr (by decide)⟩

/-- K20, K21 and K22. -/
theorem witness_OtherLayout :
    Cfg.default.wf = true ∧ (2 : Tcode) ∈ Cfg.default.tcOther ∧ (0x08 : Byte).toNat / 4 = (2 : Tcode).toNat ∧
    (0x0B : Byte).toNat % 4 = Cfg.default.tagEom.toNat ∧
    ({ Cfg.default with unhandledPolicy := .tcodeOnly } : Cfg).unhandledPolicy = .tcodeOnly ∧
    Cfg.default.unhandledPolicy = .skipToEom ∧ (0x08 : Byte).toNat % 4 ≠ Cfg.default.tagEom.toNat ∧
    IsRun Cfg.default.tagEom [0x03] :=
  ⟨by decide, by decide, by decide, by decide, rfl, rfl, by decide, eomByte⟩

theorem witness_UnknownTcodeIsInvalid :
    (63 : Tcode).toNat = (0xFC : Byte).toNat / 4 ∧ (63 : Tcode) ≠ Cfg.default.tcSync ∧ (63 : Tcode) ≠ Cfg.default.tcDbr ∧
    (63 : Tcode) ≠ Cfg.default.tcIbr ∧ (63 : Tcode) ≠ Cfg.default.tcCorr ∧ (63 : Tcode) ∉ Cfg.default.tcOther := by decide

/-- A run of the default configuration whose value, in full groups, is `2^64`: the lowest that does not fit. -/
def wide (tag : Tag) : List Byte := List.replicate 10 0x00 ++ [traceByte 16 tag]

/-- Run A of each kind, of a value that fits and of `2^64` (bit 62 above two bits, bit 60 above four). -/
theorem witness_FirstField :
    (FirstField Cfg.default 0x24 [0x14, 0x00, 0x21] 0 2 ∧ FirstField Cfg.default 0x0C [0x09] 2 6 ∧
      FirstField Cfg.default 0x10 [0x19] 6 4 ∧ FirstField Cfg.default 0x84 [0x19] 6 4) ∧
    FirstField Cfg.default 0x24 (0x14 :: List.replicate 10 0x00 ++ [0x11]) 0 2 ∧
    FirstField Cfg.default 0x0C (wide 0b01) 0 6 ∧
    FirstField Cfg.default 0x10 (List.replicate 11 0x00 ++ [0x05]) 0 4 ∧
    FirstField Cfg.default 0x84 (List.replicate 11 0x00 ++ [0x05]) 0 4 :=
  ⟨⟨.inl (by decide), .inr (.inl (by decide)), .inr (.inr (by decide)), .inr (.inr (by decide))⟩,
    .inl (by decide), .inr (.inl (by decide)), .inr (.inr (by decide)), .inr (.inr (by decide))⟩

/-- A first field of each kind, a second field and the timestamp of IBR, at the lowest value that does not fit. -/
theorem witness_FieldOverflowStopsTheDecode :
    Cfg.default.wf = true ∧ Cfg.default.fieldOverflow = .fault ∧
    (2 ^ 64 ≤ fieldValue 0 2 (0x14 :: List.replicate 10 0x00 ++ [0x11]) ∧ 2 ^ 64 ≤ fieldValue 0 6 (wide 0b01) ∧
      2 ^ 64 ≤ fieldValue 0 4 (List.replicate 11 0x00 ++ [0x05])) ∧
    (fieldValue 0 2 [0x14, 0x00, 0x21] < 2 ^ 64 ∧ fieldValue 2 6 [0x09] < 2 ^ 64 ∧ fieldValue 6 4 [0x19] < 2 ^ 64) ∧
    (secondTag Cfg.default 0x24 = 0b11 ∧ secondTag Cfg.default 0x0C = 0b11 ∧ secondTag Cfg.default 0x10 = 0b01 ∧
      secondTag Cfg.default 0x84 = 0b11) ∧
    IsRun 0b01 (wide 0b01) ∧ IsRun 0b11 (wide 0b11) ∧ 2 ^ 64 ≤ fieldValue (payload (wide 0b11) 0) 6 (wide 0b11) ∧
    (fieldValue (payload [0x19] 0) 6 [0x19] < 2 ^ 64 ∧ (0x10 : Byte).toNat / 4 = Cfg.default.tcIbr.toNat) :=
  ⟨by decide, rfl, by decide, by decide, by decide, ⟨List.replicate 10 0x00, 0x41, by decide, by decide, by decide⟩,
    ⟨List.replicate 10 0x00, 0x43, by decide, by decide, by decide⟩, by decide, by decide⟩

theorem witness_DecodeLooksNoFurther :
    decodePacket Cfg.default ⟨0, [0x0C, 0x09, 0x03, 0xFC]⟩ = .ok (.row (.dbr 2 0)) ⟨3, [0xFC]⟩ := by decide

/-- One for each clause: cut before the first byte and before the last; run A of P-a, with a marker that does not match, and
of no byte; a second run, of no byte, after an accepted run A; the third run of IBR; and a skipped packet. -/
theorem witness_TruncatedPacketFails :
    (decodePacket Cfg.default ⟨7, [0x0C, 0x09, 0x03]⟩ = .ok (.row (.dbr 2 0)) ⟨10, []⟩ ∧ 7 + 0 < 10 ∧ 7 + 2 < 10) ∧
    (Cfg.default.wf = true ∧ (0x24 : Byte).toNat / 4 = Cfg.default.tcSync.toNat ∧ Unended Cfg.default.tagEof [0x18] ∧
      Unended Cfg.default.tagEof [] ∧ Unended Cfg.default.tagEof (wide 0b11)) ∧
    (IsRun Cfg.default.tagEof [0x19] ∧ FirstField Cfg.default 0x10 [0x19] 6 4 ∧ Fits Cfg.default (fieldValue 6 4 [0x19]) ∧
      Unended (secondTag Cfg.default 0x10) [0x03] ∧ Unended (secondTag Cfg.default 0x84) [0x01]) ∧
    ((0x10 : Byte).toNat / 4 = Cfg.default.tcIbr.toNat ∧ Fits Cfg.default (fieldValue (payload [0x19] 0) 6 [0x19]) ∧
      Unended Cfg.default.tagEom [0x19]) ∧
    ((2 : Tcode) ∈ Cfg.default.tcOther ∧ (0x08 : Byte).toNat / 4 = (2 : Tcode).toNat ∧
      Cfg.default.unhandledPolicy = .skipToEom ∧ (0x08 : Byte).toNat % 4 ≠ Cfg.default.tagEom.toNat ∧
      Unended Cfg.default.tagEom [0x41]) := by
  refine ⟨by decide, ?_, ⟨eofByte, witness_FirstField.1.2.2.1, .inr (by decide), ?_, ?_⟩, ⟨by decide, .inr (by decide), ?_⟩, ?_⟩ <;>
    unfold Unended <;> decide

theorem witness_DecodeUndoesEncode :
    Cfg.default.wf = true ∧
    ∀ i ∈ [Instr.sync 5 (-1) 0, .dbr 0 (-1), .ibr .interrupt (-1) 0 1, .corr 3 (-1) 0, .other2, .other8, .other11,
      .other12, .other27, .other28, .other29], i.wf Cfg.default = true := by decide

theorem witness_OperandOffsetReadsTheLastToken :
    (',' ∉ [' '] ++ ['1', '2'] ++ ['\t'] ∧ (∀ ch ∈ [' '] ++ ['\t'], Blank ch) ∧
      (∀ ch, (['1', '2'] : Text).head? = some ch → ¬ Blank ch) ∧
      ∀ ch, (['1', '2'] : Text).getLast? = some ch → ¬ Blank ch) ∧
    ∀ ch, ([] : Text).head? = some ch → ¬ Blank ch := by
  simp [Blank]

theorem witness_UnscaleDoubles :
    (0x7FFFFFFFFFFFFFFF : Word).toNat < 2 ^ 63 ∧
    unscale (0x7FFFFFFFFFFFFFFF : Word) = unscale (0x7FFFFFFFFFFFFFFF : Word) := by decide

theorem witness_LookupIsByExactAddress :
    Index.wf [(0, beq), (0xFFFFFFFFFFFFFFFF, addi)] = true ∧
    Index.lookup [(0, beq), (0xFFFFFFFFFFFFFFFF, addi)] 0xFFFFFFFFFFFFFFFF = some addi ∧
    Index.lookup [(0, beq), (0xFFFFFFFFFFFFFFFF, addi)] 1 = none := ⟨by decide, by simp [Index.lookup, Index.find], by decide⟩

theorem witness_StepRunsTheDecodedInstruction :
    ((launched [] sync800).cfg.wf = true ∧ (launched [] sync800).phase = .init ∧
      readAt (launched [] sync800) = .ok (.row (.sync 5 0x800 0)) ⟨5, []⟩) ∧
    (running [] [0x0B]).phase = .running ∧ (running [] [0x0B]).ctl = .idle ∧
    (running [] [0x0B]).pos ≠ (running [] [0x0B]).trace.length ∧
    readAt (running [] [0x0B]) = .ok (.row .other2) ⟨6, []⟩ := by decide

/-- The three clauses: a failed decode, SYNC, any other packet. -/
theorem witness_InitStepTakesOneSync :
    (launched [] []).cfg.wf = true ∧ (launched [] []).phase = .init ∧
    readAt (launched [] []) = .err (.unexpectedEof 0) ⟨0, []⟩ ∧
    readAt (launched [] sync800) = .ok (.row (.sync 5 0x800 0)) ⟨5, []⟩ ∧
    readAt (launched [] [0x0B]) = .ok (.row .other2) ⟨1, []⟩ ∧ (Item.row .other2).packet.kind ≠ .sync := by decide

/-- One state for each clause. -/
theorem witness_RunStepHandlesEveryKind :
    ((running [] []).cfg.wf = true ∧ (running [] []).phase = .running ∧ (running [] []).ctl = .idle ∧
      (running [] []).pos = (running [] []).trace.length) ∧
    readAt (running [] [0xFC]) = .err (.invalidTcode 63) ⟨6, []⟩ ∧
    readAt (running [] [0x0C, 0x01, 0x03]) = .ok (.row (.dbr 0 0)) ⟨8, []⟩ ∧
    readAt (running [] [0x0C, 0x05, 0x03]) = .ok (.row (.dbr 1 0)) ⟨8, []⟩ ∧
    readAt (running [] [0x10, 0x01, 0x01, 0x03]) = .ok (.row (.ibr .indirect 0 0 0)) ⟨9, []⟩ ∧
    readAt (running [] [0x84, 0x01, 0x03]) = .ok (.row (.corr 0 0 0)) ⟨8, []⟩ ∧
    readAt (running [] sync800) = .ok (.row (.sync 5 0x800 0)) ⟨10, []⟩ ∧
    readAt (running [] [0x0B]) = .ok (.row .other2) ⟨6, []⟩ := by decide

theorem witness_FailedDecodeReturnsNoPacket :
    (launched [] [0x24, 0x14, 0x00]).phase = .init ∧
    readAt (launched [] [0x24, 0x14, 0x00]) = .err (.unexpectedEof 3) ⟨3, []⟩ ∧
    readAt (running [] [0x0C, 0x09]) = .err (.unexpectedEof 7) ⟨7, []⟩ := by decide

/-- For the statements about a packet in `INIT` and between packets. -/
theorem witness_SyncSetsTheEntryPoint : (launched [] []).phase = .init := rfl
theorem witness_SyncIsIgnoredWhileRunning : (running [] []).phase = .running ∧ (running [] []).ctl = .idle := ⟨rfl, rfl⟩
theorem witness_CountedPacketsLoadTheirWalk :
    (running [] []).phase = .running ∧ (running [] []).ctl = .idle ∧ (1 : Word) ≠ 0 := by decide
theorem witness_EmptyDirectBranchIsRaised : (running [] []).phase = .running ∧ (running [] []).ctl = .idle := ⟨rfl, rfl⟩
theorem witness_OtherKindsAreIgnored :
    (Instr.other29, (29 : Tcode)) ∈ [(Instr.other2, (2 : Tcode)), (.other8, 8), (.other11, 11), (.other12, 12),
      (.other27, 27), (.other28, 28), (.other29, 29)] ∧ (running [] []).phase = .running ∧
    (running [] []).ctl = .idle := by decide
theorem witness_FirstPacketMustBeSync :
    (∀ m a t, Instr.dbr 0 0 ≠ .sync m a t) ∧ (launched [] []).phase = .init := ⟨fun _ _ _ => nofun, rfl⟩

/-- The final states of the runs V12 and E1 without their outputs. -/
def ended : State := { running [] [] with phase := .terminal, endReason := .endOfStream }

def failed : State := { launched [] [] with phase := .failed, fail := some ⟨.decode (.unexpectedEof 0), 0, 0⟩ }

theorem witness_PacketsWaitTheirTurn :
    ended.phase = .terminal ∧ failed.phase = .failed ∧ (walking .walkDirect 1 []).phase = .running ∧
    (walking .walkDirect 1 []).ctl ≠ .idle := by decide

theorem visiting_walk (ctl : Ctl) (n : Word) (x : Index) (hc : ctl ≠ .idle) (hn : n ≠ 0) :
    Visiting (walking ctl n x) := ⟨show Cfg.default.wf = true by decide, rfl, hc, hn⟩

theorem witness_MissingInstructionIsRaised :
    Visiting (walking .walkDirect 1 []) ∧
    (walking .walkDirect 1 []).index.lookup (walking .walkDirect 1 []).currentPc = none :=
  ⟨visiting_walk _ _ _ (by decide) (by decide), by decide⟩

/-- A zero length and an odd one. -/
theorem witness_BadInstructionLengthIsRaised :
    Visiting (walking .walkCorr 1 [(0x1000, oddLength)]) ∧
    (walking .walkCorr 1 [(0x1000, oddLength)]).index.lookup 0x1000 = some oddLength ∧
    ¬ LegalLength oddLength ∧ ¬ LegalLength ⟨['x'], [], 0⟩ :=
  ⟨visiting_walk _ _ _ (by decide) (by decide), by decide, fun h => by simpa [oddLength] using h.2, fun h => h.1 rfl⟩

theorem witness_ParcelUnderflowIsRaised :
    Visiting (walking .walkDirect 1 [(0x1000, addi)]) ∧
    (walking .walkDirect 1 [(0x1000, addi)]).index.lookup 0x1000 = some addi ∧ LegalLength addi ∧
    (walking .walkDirect 1 [(0x1000, addi)]).remaining.toNat < addi.len / 2 :=
  ⟨visiting_walk _ _ _ (by decide) (by decide), by decide, ⟨by decide, by decide⟩, by decide⟩

/-- A visit that takes the whole count, of either by-length walk. -/
theorem witness_VisitByLengthAdvances :
    Visiting (walking .walkDirect 2 [(0x1000, addi)]) ∧ Visiting (walking .walkCorr 2 [(0x1000, addi)]) ∧
    (walking .walkDirect 2 [(0x1000, addi)]).index.lookup 0x1000 = some addi ∧ LegalLength addi ∧
    addi.len / 2 ≤ (walking .walkDirect 2 [(0x1000, addi)]).remaining.toNat :=
  ⟨visiting_walk _ _ _ (by decide) (by decide), visiting_walk _ _ _ (by decide) (by decide), by decide,
    ⟨by decide, by decide⟩, by decide⟩

theorem witness_VisitOfIndirectWalkFollowsJumps :
    (Visiting (walking .walkIndirect 2 [(0x1000, addi)]) ∧
      (walking .walkIndirect 2 [(0x1000, addi)]).index.lookup 0x1000 = some addi ∧ LegalLength addi ∧
      addi.len / 2 ≤ (2 : Word).toNat ∧ addi.mnem ∉ Cfg.default.jumpMnemonics) ∧
    Visiting (walking .walkIndirect 2 [(0x1000, jal)]) ∧
    (walking .walkIndirect 2 [(0x1000, jal)]).index.lookup 0x1000 = some jal ∧ LegalLength jal ∧
    jal.len / 2 ≤ (2 : Word).toNat ∧ jal.mnem ∈ Cfg.default.jumpMnemonics ∧ operandOffset jal.ops = some 16 :=
  ⟨⟨visiting_walk _ _ _ (by decide) (by decide), by decide, ⟨by decide, by decide⟩, by decide, by decide⟩,
    visiting_walk _ _ _ (by decide) (by decide), by decide, ⟨by decide, by decide⟩, by decide, by decide, by decide⟩

theorem witness_UnsupportedBranchOperandIsRaised :
    ((resolving jalNoOffset).cfg.wf = true ∧ (resolving jalNoOffset).phase = .running ∧
      (resolving jalNoOffset).ctl = .walkDirect ∧ (resolving jalNoOffset).remaining = 0 ∧
      (resolving jalNoOffset).lastEntry = some jalNoOffset ∧ operandOffset jalNoOffset.ops = none) ∧
    Visiting (walking .walkIndirect 2 [(0x1000, jalNoOffset)]) ∧
    (walking .walkIndirect 2 [(0x1000, jalNoOffset)]).index.lookup 0x1000 = some jalNoOffset ∧
    LegalLength jalNoOffset ∧ jalNoOffset.len / 2 ≤ (2 : Word).toNat ∧
    jalNoOffset.mnem ∈ Cfg.default.jumpMnemonics :=
  ⟨by decide, visiting_walk _ _ _ (by decide) (by decide), by decide, ⟨by decide, by decide⟩, by decide, by decide⟩

theorem witness_DirectBranchResolves :
    (resolving beq).cfg.wf = true ∧ (resolving beq).phase = .running ∧ (resolving beq).ctl = .walkDirect ∧
    (resolving beq).remaining = 0 ∧ (resolving beq).lastEntry = some beq ∧ operandOffset beq.ops = some 32 := by decide

theorem witness_IndirectBranchResolves :
    (walking .walkIndirect 0 []).cfg.wf = true ∧ (walking .walkIndirect 0 []).phase = .running ∧
    (walking .walkIndirect 0 []).ctl = .walkIndirect ∧ (walking .walkIndirect 0 []).remaining = 0 := by decide

theorem witness_CorrelationEndsTheTrace :
    (walking .walkCorr 0 []).cfg.wf = true ∧ (walking .walkCorr 0 []).phase = .running ∧
    (walking .walkCorr 0 []).ctl = .walkCorr ∧ (walking .walkCorr 0 []).remaining = 0 := by decide

theorem witness_FinalStatesHaveNoStep :
    ended.cfg.wf = true ∧ ended.phase = .terminal ∧ failed.cfg.wf = true ∧ failed.phase = .failed := by decide

theorem witness_BadConfigurationIsRefused :
    ({ Cfg.default with tagEof := 0b11 } : Cfg).tagEof = Cfg.default.tagEom ∧
    ¬ ([(9 : Tcode), 3, 4, 33] ++ [33]).Nodup ∧
    Cfg.default.tagEof ≠ Cfg.default.tagEom ∧
    ([Cfg.default.tcSync, Cfg.default.tcDbr, Cfg.default.tcIbr, Cfg.default.tcCorr] ++ Cfg.default.tcOther).Nodup := by
  decide

theorem witness_StatusOfAFinalState :
    ended.phase = .terminal ∧ failed.phase = .failed ∧ failed.fail = some ⟨.decode (.unexpectedEof 0), 0, 0⟩ ∧
    (running [] []).phase = .running ∧ (launched [] []).phase = .init := by decide

/-- A core in the middle of V1: DBR decoded, no visit made yet. -/
def midWalk : State :=
  { running [(0x1000, beq)] [0x0C, 0x09, 0x03] with
      pos := 8, pktStart := 5, ctl := .walkDirect, remaining := 2, packetsProcessed := 2, pkt := dbr2,
      events := [.decoded (Instr.sync 5 0x800 0).packet, .decoded dbr2] }

theorem witness_InvariantAtLaunch : Index.wf [(0x1000, beq)] = true ∧ Index.wf [] = true := by decide

/-- The invariant holds of a state in the middle of a run. -/
theorem midWalk_inv : midWalk.Inv where
  indexWf       := by decide
  posLe         := by decide
  startLe       := by decide
  counted       := by decide
  countLe       := by decide
  initLaunch    := nofun
  runningCount  := fun _ => by decide
  failIff       := by decide
  failOffset    := nofun
  endIff        := by decide
  walkPhase     := fun _ => .inl rfl
  walkDirect    := fun _ => rfl
  walkIndirect  := nofun
  walkCorr      := nofun
  remainingLe   := fun _ => by decide
  directEntry   := fun _ h => absurd h (by decide)
  lastVisitedIn := nofun
  lastEven      := by decide
  recordsIn     := nofun
  pktShaped     := ⟨fun _ => ⟨rfl, rfl⟩, fun _ => ⟨rfl, rfl⟩, fun _ => rfl, fun h => absurd rfl h, fun _ h => absurd rfl h⟩

theorem witness_InvariantIsKept : midWalk.Inv ∧ (nextOf (step midWalk)).isSome = true := ⟨midWalk_inv, by decide⟩

theorem witness_UnfinishedRunsTakeAStep : midWalk.Inv ∧ midWalk.cfg.wf = true ∧ midWalk.phase = .running :=
  ⟨midWalk_inv, by decide, rfl⟩

/-- A step that reads a packet moves `pos`; a visit does not. -/
theorem witness_InputsAreReadOnly :
    after (·.pos) (launched [] sync800) = some 5 ∧ after (·.pos) midWalk = some 8 ∧ midWalk.pos = 8 := by decide

theorem witness_OutputsAreAppendedAndNeverRead :
    after (fun s => (s.records.length, s.events.length)) midWalk = some (1, 2) := by decide

/-- A step that visits and one that does not. -/
theorem witness_RecordsAreTheVisits :
    Visiting midWalk ∧ midWalk.index.lookup midWalk.currentPc = some beq ∧ LegalLength beq ∧
    (nextOf (step midWalk)).isSome = true ∧
    ¬ Visiting (running [] [0x0B]) ∧ (nextOf (step (running [] [0x0B]))).isSome = true :=
  ⟨⟨by decide, rfl, by decide, by decide⟩, by decide, ⟨by decide, by decide⟩, by decide,
    fun h => h.2.2.1 rfl, by decide⟩

/-- Two states that differ in forwarded data. -/
theorem witness_ForwardedDataDoNotSteer :
    withoutForwarded midWalk = withoutForwarded { midWalk with pkt := (Instr.dbr 2 7).packet, events := [] } ∧
    midWalk ≠ { midWalk with pkt := (Instr.dbr 2 7).packet, events := [] } := by decide

/-- The two writers of `last_absolute_address`. -/
theorem witness_WritersOfLastAbsoluteAddress :
    (launched [] sync800).lastAbsoluteAddress ≠ 0x1000 ∧
    after (·.lastAbsoluteAddress) (launched [] sync800) = some 0x1000 ∧
    (walking .walkIndirect 0 []).lastAbsoluteAddress ≠ 0x2000 ∧
    after (·.lastAbsoluteAddress) (walking .walkIndirect 0 []) = some 0x2000 := by decide

/-- The writers of `current_pc`: Init, a visit, the two resolutions. -/
theorem witness_WritersOfCurrentPc :
    after (fun s => s.currentPc ≠ 0) (launched [] sync800) = some (0x1000 ≠ (0 : Word)) ∧
    after (·.currentPc) midWalk = some 0x1004 ∧ midWalk.currentPc = 0x1000 ∧
    after (·.currentPc) (resolving beq) = some 0x1020 ∧ (resolving beq).currentPc = 0x1004 ∧
    after (·.currentPc) (walking .walkIndirect 0 []) = some 0x2000 := ⟨rfl, by decide, rfl, by decide, rfl, by decide⟩

/-- The three ways to stop, and a state of a run for the first premise. -/
theorem witness_WhatStopsTheMachine :
    midWalk.Inv ∧ (nextOf (step midWalk)).isSome = true ∧
    after (·.phase) (walking .walkCorr 0 []) = some .terminal ∧ after (·.phase) (running [] []) = some .terminal ∧
    after (·.phase) (launched [] []) = some .failed := ⟨midWalk_inv, by decide⟩

/-- An error of a decode and one of a replay. -/
theorem witness_ErrorsAreAttributed :
    after (·.phase) (running [] [0xFC]) = some .failed ∧ after (·.phase) (walking .walkDirect 1 []) = some .failed := by
  decide

theorem witness_EveryRunEnds : Cfg.default.wf = true ∧ Index.wf [(0x1000, beq)] = true := by decide

theorem witness_DirectWalkCoversItsCount :
    midWalk.cfg.wf = true ∧ midWalk.phase = .running ∧ midWalk.ctl = .walkDirect ∧ midWalk.remaining ≠ 0 := by decide

/-- A walk of two instructions in each of the three walks: by length, and with a jump followed. -/
theorem witness_WalksRunToTheirEnd :
    (walking .walkDirect 4 [(0x1000, jal), (0x1004, beq)]).cfg.wf = true ∧
    parcelSum [⟨0x1000, jal⟩, ⟨0x1004, beq⟩] = some (4 : Word).toNat ∧
    IsWalk nextByLength [(0x1000, jal), (0x1004, beq)] 0x1000 [⟨0x1000, jal⟩, ⟨0x1004, beq⟩] 0x1008 ∧
    operandOffset beq.ops = some 32 ∧
    parcelSum [⟨0x1000, jal⟩, ⟨0x1010, addi⟩] = some (4 : Word).toNat ∧
    IsWalk (jumpAwareNext Cfg.default) [(0x1000, jal), (0x1010, addi)] 0x1000 [⟨0x1000, jal⟩, ⟨0x1010, addi⟩] 0x1014 :=
  ⟨by decide, by decide, ⟨rfl, by decide, 0x1004, by decide, rfl, by decide, 0x1008, by decide, rfl⟩, by decide,
    by decide, ⟨rfl, by decide, 0x1010, by decide, rfl, by decide, 0x1014, by decide, rfl⟩⟩

end Sys2Proof.Tests
end

/-! Which steps are refused (rules R6 and R150): every part of the engine answers a next state or a fault, so the check of
the configuration is the only source of a refusal. -/

namespace Sys2Proof.Machine

/-- Where a packet is read, the step is taken: a decode error and every decoded packet give a next state (rules R120,
R128). -/
theorem readPacket_completes {s : State} (h : s.Reading) : ∃ t, readPacket s = .next t := by
  rcases readPacket_cases s with ⟨e, r, -, hrun⟩ | ⟨x, r, -, hrun⟩
  · exact ⟨_, hrun⟩
  · rw [hrun]
    exact runItem_completes x (h.handles r.pos)

/-- A visit is always taken, since its errors are next states (rules R154, R211). -/
theorem visit_completes (m : VisitMode) (s : State) : ∃ t, visit m s = .next t := by
  rcases visit_cases m s with ⟨-, h⟩ | ⟨_, -, -, h⟩ | ⟨_, _, -, -, -, h⟩ | ⟨_, _, -, -, -, -, h⟩ |
    ⟨_, _, _, -, -, -, -, h⟩
  all_goals exact ⟨_, h⟩

theorem resolve_walkDirect {s : State} (h : s.ctl = .walkDirect) : resolve s = resolveDirect s := by
  simp [resolve, h]

theorem resolve_walkIndirect {s : State} (h : s.ctl = .walkIndirect) : resolve s = resolveIndirect s := by
  simp [resolve, h]

theorem resolve_walkCorr {s : State} (h : s.ctl = .walkCorr) : resolve s = endCorr s := by
  simp [resolve, h]

/-- The end of a walk is resolved, or is the direct walk without a last entry that rule R156 excludes. -/
theorem resolve_next_or_noLastEntry {s : State} (hc : s.ctl ≠ .idle) :
    (∃ t, resolve s = .next t) ∨ resolve s = .fault .noLastEntry := by
  cases hk : s.ctl with
  | idle => exact absurd hk hc
  | walkDirect =>
    rw [resolve_walkDirect hk]
    rcases resolveDirect_cases s with ⟨-, h⟩ | ⟨_, -, -, h⟩ | ⟨_, _, -, -, h⟩
    · exact .inr h
    · exact .inl ⟨_, h⟩
    · exact .inl ⟨_, h⟩
  | walkIndirect => exact .inl ⟨_, resolve_walkIndirect hk⟩
  | walkCorr => exact .inl ⟨_, resolve_walkCorr hk⟩

/-- Under a legal configuration a running machine takes a step, or stops at the fault of rule R156. -/
theorem step_running_next_or_noLastEntry {s : State} (hw : s.cfg.wf = true) (hp : s.phase = .running) :
    (∃ t, step s = .next t) ∨ step s = .fault .noLastEntry := by
  by_cases hc : s.ctl = .idle
  · by_cases hl : s.pos = s.trace.length
    · exact .inl ⟨_, step_endOfStream hw hp hc hl⟩
    · have hread : s.Reading := .inr ⟨hp, hc, hl⟩
      rw [step_reading hw hread]
      exact .inl (readPacket_completes hread)
  · by_cases hr : s.remaining = 0
    · rw [step_resolve hw hp hc hr]
      exact resolve_next_or_noLastEntry hc
    · rw [step_visit hw hp hc hr]
      exact .inl (visit_completes _ s)

/-- Under a legal configuration every step answers a next state or a fault. -/
theorem step_next_or_fault {s : State} (hw : s.cfg.wf = true) : (∃ t, step s = .next t) ∨ ∃ f, step s = .fault f := by
  cases hp : s.phase with
  | init =>
    have hread : s.Reading := .inl hp
    rw [step_reading hw hread]
    exact .inl (readPacket_completes hread)
  | running => exact (step_running_next_or_noLastEntry hw hp).imp_right fun h => ⟨_, h⟩
  | terminal => exact .inr ⟨_, step_terminal hw hp⟩
  | failed => exact .inr ⟨_, step_failed hw hp⟩

theorem step_ne_refused {s : State} (hw : s.cfg.wf = true) (r : Refusal) : step s ≠ .refused r := by
  rcases step_next_or_fault hw with ⟨t, h⟩ | ⟨f, h⟩ <;> simp [h]

/-- Settles O43: the two premises are the failure and the truth of `Cfg.wf`, the check `step` makes first. -/
theorem badConfigurationIsRefused : Obligations.BadConfigurationIsRefused := by
  intro s
  refine ⟨fun hbad => step_badConfig ?_, fun htag hdistinct => step_ne_refused ?_⟩
  · rw [← Bool.not_eq_true, Cfg.wf_iff]
    rintro ⟨htag, hdistinct⟩
    exact hbad.elim htag (· hdistinct)
  · exact (Cfg.wf_iff s.cfg).2 ⟨htag, hdistinct⟩

end Sys2Proof.Machine

/-! Decoding has no lookahead (rules R38, R52): what a read that succeeds gives is decided by the bytes it consumes. -/

namespace Sys2Proof

/-- A reading operation whose success depends on the bytes it consumes alone: it gives the same value, and consumes the
same bytes, on any stream that begins with them, at any offset. -/
def ReadsLocally {α : Type} (f : Reader → Read α) : Prop :=
  ∀ p bs a r, f ⟨p, bs⟩ = .ok a r → ∃ used rest, bs = used ++ rest ∧ r = ⟨p + used.length, rest⟩ ∧
    ∀ q rest', f ⟨q, used ++ rest'⟩ = .ok a ⟨q + used.length, rest'⟩

theorem ReadsLocally.ok {α : Type} (a : α) : ReadsLocally (Read.ok a) := by
  intro p bs b r h
  cases h
  exact ⟨[], bs, rfl, rfl, fun _ _ => rfl⟩

theorem ReadsLocally.err {α : Type} (e : Reader → DecodeError) : ReadsLocally fun r => (.err (e r) r : Read α) :=
  fun _ _ _ _ h => nomatch h

theorem ReadsLocally.ite {α : Type} {P : Prop} [Decidable P] {f g : Reader → Read α} (hf : ReadsLocally f)
    (hg : ReadsLocally g) : ReadsLocally fun r => if P then f r else g r := by
  split
  · exact hf
  · exact hg

/-- A sequence of two reads consumes the bytes of the one and then those of the other. -/
theorem ReadsLocally.andThen {α β : Type} {f : Reader → Read α} {g : α → Reader → Read β} (hf : ReadsLocally f)
    (hg : ∀ a, ReadsLocally (g a)) : ReadsLocally fun r => (f r).andThen g := by
  intro p bs b r h
  obtain ⟨a, q, hfa, hga⟩ := Read.andThen_eq_ok.1 h
  obtain ⟨used, mid, rfl, rfl, hf⟩ := hf p bs a q hfa
  obtain ⟨used', rest, rfl, rfl, hg⟩ := hg a _ _ _ _ hga
  refine ⟨used ++ used', rest, by simp, by simp [Nat.add_assoc], fun q rest' => ?_⟩
  simp only [List.append_assoc, hf, Read.ok_andThen, hg, List.length_append, Nat.add_assoc]

theorem readByte_local : ReadsLocally readByte := by
  intro p bs a r h
  cases bs with
  | nil => cases h
  | cons b bs =>
    cases h
    exact ⟨[a], bs, rfl, rfl, fun _ _ => rfl⟩

/-- Rule R101: a run is looked at up to its terminator only. -/
theorem readFieldUntil_local (tag : Tag) : ReadsLocally (readFieldUntil tag) := by
  intro p bs run r h
  rcases readFieldUntil_cases tag ⟨p, bs⟩ with ⟨xs, b, rest, rfl, hb, hxs, e⟩ | ⟨-, e⟩
  · cases e.symm.trans h
    refine ⟨xs ++ [b], rest, by simp, by simp [Nat.add_assoc], fun q rest' => ?_⟩
    simpa [readFieldUntil, Nat.add_assoc] using readRunFrom_run q hxs hb rest'
  · cases e.symm.trans h

/-- Rule R102: the assembly of a field reads nothing. -/
theorem packK_local (c : Cfg) (v0 k : Nat) (run : List Byte) : ReadsLocally (packK c v0 k run) := by
  refine .ite ?_ (.ok _)
  cases c.fieldOverflow with
  | fault => exact .err _
  | truncate => exact .ok _

theorem pack6_local (c : Cfg) (run : List Byte) : ReadsLocally (pack6 c run) :=
  packK_local _ _ _ _

theorem decodeSync_local (c : Cfg) : ReadsLocally (decodeSync c) :=
  (readFieldUntil_local _).andThen fun _ => .ite (.err _) <|
    (packK_local _ _ _ _).andThen fun _ => (readFieldUntil_local _).andThen fun _ =>
    (pack6_local _ _).andThen fun _ => .ok _

theorem decodeDbr_local (c : Cfg) : ReadsLocally (decodeDbr c) :=
  (readFieldUntil_local _).andThen fun _ => (pack6_local _ _).andThen fun _ =>
    (readFieldUntil_local _).andThen fun _ => (pack6_local _ _).andThen fun _ => .ok _

theorem decodeIbr_local (c : Cfg) : ReadsLocally (decodeIbr c) :=
  (readFieldUntil_local _).andThen fun _ => (packK_local _ _ _ _).andThen fun _ =>
    (readFieldUntil_local _).andThen fun _ => (pack6_local _ _).andThen fun _ =>
    (readFieldUntil_local _).andThen fun _ => (pack6_local _ _).andThen fun _ => .ok _

theorem decodeCorr_local (c : Cfg) : ReadsLocally (decodeCorr c) :=
  (readFieldUntil_local _).andThen fun _ => (packK_local _ _ _ _).andThen fun _ =>
    (readFieldUntil_local _).andThen fun _ => (pack6_local _ _).andThen fun _ => .ok _

theorem decodeOther_local (c : Cfg) (t : Byte) : ReadsLocally (decodeOther c t) :=
  .ite ((readFieldUntil_local _).andThen fun _ => .ok _) (.ok _)

/-- A packet is decoded from its own bytes: the Tcode byte, then the runs of its kind. -/
theorem decodePacket_local (c : Cfg) : ReadsLocally (decodePacket c) :=
  readByte_local.andThen fun t =>
    .ite (decodeSync_local c) <| .ite (decodeDbr_local c) <| .ite (decodeIbr_local c) <| .ite (decodeCorr_local c) <|
    .ite (decodeOther_local c t) (.err _)

/-- Settles O13: the decoder is a sequence of reads that look at what they consume, the Tcode byte first. -/
theorem decodeLooksNoFurther : Obligations.DecodeLooksNoFurther := by
  intro c p bs x r h
  have moved := (decodePacket_ok_pos h).1
  obtain ⟨used, rest, rfl, rfl, same⟩ := decodePacket_local c p bs x r h
  refine ⟨used.length, by simpa using moved, by simp, by simp, fun q rest' => ?_⟩
  rw [List.take_left]
  exact same q rest'

end Sys2Proof

/-! What a step writes, field by field (rules R20 to R33), read off `StepEffect`: the inputs, the address registers, the
phase, the packet bookkeeping and the visit registers. -/

namespace Sys2Proof.Machine

/-- Rules R33 and R54: the trace, the Index and the configuration are only read. -/
theorem StepEffect.inputs {s t : State} (h : StepEffect s t) :
    t.trace = s.trace ∧ t.index = s.index ∧ t.cfg = s.cfg := by
  cases h <;> exact ⟨rfl, rfl, rfl⟩

/-- Settles O53: of all effects only the SYNC of `INIT` and an indirect resolution write the register. -/
theorem writersOfLastAbsoluteAddress : Obligations.WritersOfLastAbsoluteAddress := by
  intro s t h hne
  cases (step_effect h).2 with
  | enters hp hd => exact ⟨rfl, .inl ⟨hp, rfl, rfl, rfl⟩⟩
  | indirectResolves hp hc hr => exact ⟨rfl, .inr ⟨hp, hc, hr, rfl⟩⟩
  | _ => exact absurd rfl hne

/-- Settles O54: the effects that write `current_pc` are the SYNC of `INIT`, a completed visit and the resolutions. -/
theorem writersOfCurrentPc : Obligations.WritersOfCurrentPc := by
  intro s t h hne
  obtain ⟨hw, effect⟩ := step_effect h
  cases effect with
  | enters hp hd => exact .inl ⟨hp, rfl, rfl⟩
  | visits hp hc hr hx hn hle ht => exact .inr (.inl ⟨hw, hp, hc, hr⟩)
  | directResolves hp hc hr he ho => exact .inr (.inr ⟨hp, hr, .inl hc⟩)
  | indirectResolves hp hc hr => exact .inr (.inr ⟨hp, hr, .inr hc⟩)
  | _ => exact absurd rfl hne

/-! ### The packet bookkeeping -/

theorem decodedPackets_append (xs ys : List Event) :
    decodedPackets (xs ++ ys) = decodedPackets xs ++ decodedPackets ys := by
  induction xs with
  | nil => rfl
  | cons x xs ih => cases x <;> simp [decodedPackets, ih]

theorem decodedPackets_accept (p : Packet) (s : State) :
    decodedPackets (s.accept p).events = decodedPackets s.events ++ [p] :=
  decodedPackets_append s.events [.decoded p]

theorem decodedPackets_ignore (k : Kind) (s : State) :
    decodedPackets (s.ignore k).events = decodedPackets s.events :=
  (decodedPackets_append s.events [.ignored k]).trans (List.append_nil _)

/-- What a step does to the read pointer, the Packet register, the events and their count (rules R120, R127, R128,
R164). -/
inductive PacketEffect (s t : State) : Prop
  /-- No packet is read. -/
  | keeps (hpos : t.pos = s.pos) (hstart : t.pktStart = s.pktStart) (hpkt : t.pkt = s.pkt)
      (hcount : t.packetsProcessed = s.packetsProcessed) (hevents : t.events = s.events)
  /-- A packet is read in part: its bytes are consumed and nothing else is written. -/
  | rejects {e : DecodeError} {r : Reader} (hread : s.Reading) (hdecode : decodePacket s.cfg s.reader = .err e r)
      (hpos : t.pos = r.pos) (hstart : t.pktStart = s.pos) (hpkt : t.pkt = s.pkt)
      (hcount : t.packetsProcessed = s.packetsProcessed) (hevents : t.events = s.events)
  /-- A packet is read, reported and counted. -/
  | accepts {x : Item} {r : Reader} (hread : s.Reading) (hdecode : decodePacket s.cfg s.reader = .ok x r)
      (hpos : t.pos = r.pos) (hstart : t.pktStart = s.pos) (hpkt : t.pkt = x.packet)
      (hcount : t.packetsProcessed = s.packetsProcessed + 1)
      (hevents : decodedPackets t.events = decodedPackets s.events ++ [x.packet])

theorem StepEffect.packetEffect {s t : State} (h : StepEffect s t) : PacketEffect s t := by
  cases h with
  | decodeFails hr hd => exact .rejects hr hd rfl rfl rfl rfl rfl
  | enters hp hd => exact .accepts (.inl hp) hd rfl rfl rfl rfl (decodedPackets_accept ..)
  | expectsSync hp hd hk => exact .accepts (.inl hp) hd rfl rfl rfl rfl (decodedPackets_accept ..)
  | emptyDirect hp hc hl hd => exact .accepts (.inr ⟨hp, hc, hl⟩) hd rfl rfl rfl rfl (decodedPackets_accept ..)
  | startsDirect hp hc hl hn hd => exact .accepts (.inr ⟨hp, hc, hl⟩) hd rfl rfl rfl rfl (decodedPackets_accept ..)
  | startsIndirect hp hc hl hd => exact .accepts (.inr ⟨hp, hc, hl⟩) hd rfl rfl rfl rfl (decodedPackets_accept ..)
  | startsCorr hp hc hl hd => exact .accepts (.inr ⟨hp, hc, hl⟩) hd rfl rfl rfl rfl (decodedPackets_accept ..)
  | ignores hp hc hl hd hk =>
    exact .accepts (.inr ⟨hp, hc, hl⟩) hd rfl rfl rfl rfl ((decodedPackets_ignore ..).trans (decodedPackets_accept ..))
  | _ => exact .keeps rfl rfl rfl rfl rfl

/-- Settles O49: the inputs are written by no effect, and a reading step moves `pos` over the bytes it decodes. -/
theorem inputsAreReadOnly : Obligations.InputsAreReadOnly := by
  intro s t h
  have effect := (step_effect h).2
  obtain ⟨htrace, hindex, hcfg⟩ := effect.inputs
  have idle_of_reading : s.Reading → s.ctl = .idle ∨ s.phase = .init := fun hread =>
    hread.elim .inr fun hrun => .inl hrun.2.1
  refine ⟨htrace, hindex, hcfg, ?_⟩
  cases effect.packetEffect with
  | keeps hpos => exact ⟨hpos.ge, fun hne => absurd hpos hne⟩
  | rejects hread hd hpos => exact ⟨hpos ▸ (decodePacket_err_pos hd).1, fun _ => idle_of_reading hread⟩
  | accepts hread hd hpos => exact ⟨hpos ▸ (decodePacket_ok_pos hd).1.le, fun _ => idle_of_reading hread⟩

/-- A decoded packet has empty every field its kind gives no meaning to (rules R27, R125). -/
theorem item_packet_shaped (x : Item) : x.packet.Shaped := by
  rcases runItem_kinds x with ⟨_, _, _, rfl, -⟩ | ⟨_, _, rfl, -⟩ | ⟨_, _, _, _, rfl, -⟩ | ⟨_, _, _, rfl, -⟩ | ⟨c, hx, -⟩
  case inr.inr.inr.inr =>
    rw [hx]
    constructor <;> simp [otherPacket, Packet.empty]
  all_goals constructor <;> simp [Item.packet, Instr.packet, Packet.empty]

/-- The bookkeeping of the stream: the fields of the invariant about the read pointer and the count of packets. -/
structure State.Accounted (s : State) : Prop where
  posLe   : s.pos ≤ s.trace.length
  startLe : s.pktStart ≤ s.pos
  counted : s.packetsProcessed = BitVec.ofNat 64 (decodedCount s.events)
  countLe : decodedCount s.events ≤ s.pos

theorem PacketEffect.accounted {s t : State} (h : PacketEffect s t) (htrace : t.trace = s.trace) (hs : s.Accounted) :
    t.Accounted := by
  obtain ⟨hle, hstartLe, hcounted, hcountLe⟩ := hs
  have bytes_left : s.reader.pos + s.reader.rest.length = s.trace.length := by
    simp only [State.reader, List.length_drop]
    omega
  have reader_pos : s.reader.pos = s.pos := rfl
  cases h with
  | keeps hpos hstart hpkt hcount hevents =>
    exact ⟨by rwa [hpos, htrace], by rwa [hstart, hpos], by rwa [hcount, hevents], by rwa [hevents, hpos]⟩
  | rejects hread hd hpos hstart hpkt hcount hevents =>
    have moved := decodePacket_err_pos hd
    refine ⟨by rw [htrace]; omega, by omega, by rwa [hcount, hevents], by rw [hevents]; omega⟩
  | accepts hread hd hpos hstart hpkt hcount hevents =>
    have moved := decodePacket_ok_pos hd
    have one_more : decodedCount t.events = decodedCount s.events + 1 := by simp [decodedCount, hevents]
    refine ⟨by rw [htrace]; omega, by omega, ?_, by omega⟩
    rw [hcount, one_more, hcounted, BitVec.ofNat_add]
    rfl

theorem PacketEffect.decodedCount_mono {s t : State} (h : PacketEffect s t) :
    decodedCount s.events ≤ decodedCount t.events := by
  cases h with
  | accepts _ _ _ _ _ _ hevents => simp [decodedCount, hevents]
  | keeps _ _ _ _ hevents => rw [hevents]
  | rejects _ _ _ _ _ _ hevents => rw [hevents]

theorem PacketEffect.shaped {s t : State} (h : PacketEffect s t) (hs : s.pkt.Shaped) : t.pkt.Shaped := by
  cases h with
  | @accepts x _ _ _ _ _ hpkt => exact hpkt ▸ item_packet_shaped x
  | keeps _ _ hpkt => exact hpkt ▸ hs
  | rejects _ _ _ _ hpkt => exact hpkt ▸ hs

/-! ### The phase -/

/-- What a step does to `phase`, `fail` and `end_reason` (rules R151, R152, R159, R211). -/
inductive PhaseEffect (s t : State) : Prop
  /-- `INIT` is left by the first packet, a SYNC. -/
  | enters (hs : s.phase = .init) (ht : t.phase = .running) (hfail : t.fail = s.fail)
      (hend : t.endReason = s.endReason) (hcount : 0 < decodedCount t.events)
  /-- The run goes on. -/
  | runs (hs : s.phase = .running) (ht : t.phase = .running) (hfail : t.fail = s.fail)
      (hend : t.endReason = s.endReason)
  /-- The run ends between packets. -/
  | ends (hs : s.phase = .running) (ht : t.phase = .terminal) (hctl : t.ctl = .idle) (hfail : t.fail = s.fail)
      (hend : t.endReason ≠ .none)
  /-- An error is raised. -/
  | fails (hs : s.phase = .init ∨ s.phase = .running) (ht : t.phase = .failed) {e : Err} {n : BitVec 64}
      (hfail : t.fail = some ⟨e, n, t.pktStart⟩) (hend : t.endReason = s.endReason)

theorem State.Reading.unfinished {s : State} (h : s.Reading) : s.phase = .init ∨ s.phase = .running :=
  h.imp_right And.left

theorem StepEffect.phaseEffect {s t : State} (h : StepEffect s t) : PhaseEffect s t := by
  cases h with
  | decodeFails hr hd => exact .fails hr.unfinished rfl rfl rfl
  | enters hp hd => exact .enters hp rfl rfl rfl (by simp [decodedCount, decodedPackets_append, decodedPackets])
  | expectsSync hp hd hk => exact .fails (.inl hp) rfl rfl rfl
  | emptyDirect hp => exact .fails (.inr hp) rfl rfl rfl
  | startsDirect hp => exact .runs hp hp rfl rfl
  | startsIndirect hp => exact .runs hp hp rfl rfl
  | startsCorr hp => exact .runs hp hp rfl rfl
  | ignores hp => exact .runs hp hp rfl rfl
  | endsStream hp hc hl => exact .ends hp rfl hc rfl (by simp)
  | visits hp => exact .runs hp hp rfl rfl
  | directResolves hp => exact .runs hp hp rfl rfl
  | indirectResolves hp => exact .runs hp hp rfl rfl
  | corrEnds hp => exact .ends hp rfl rfl rfl (by simp)
  | visitMisses hp => exact .fails (.inr hp) rfl rfl rfl
  | visitBadLength hp => exact .fails (.inr hp) rfl rfl rfl
  | visitUnderflows hp => exact .fails (.inr hp) rfl rfl rfl
  | visitBadOperand hp => exact .fails (.inr hp) rfl rfl rfl
  | directFails hp => exact .fails (.inr hp) rfl rfl rfl

/-- The fields of the invariant about `phase`, `fail` and `end_reason`. -/
structure State.Phased (s : State) : Prop where
  initLaunch   : s.phase = .init → s = State.launch s.cfg s.index s.trace
  runningCount : s.phase = .running ∨ s.phase = .terminal → 0 < decodedCount s.events
  failIff      : s.phase = .failed ↔ s.fail ≠ none
  failOffset   : ∀ f, s.fail = some f → f.offset = s.pktStart
  endIff       : s.phase = .terminal ↔ s.endReason ≠ .none
  walkPhase    : s.ctl ≠ .idle → s.phase = .running ∨ s.phase = .failed

theorem State.Phased.fail_eq_none {s : State} (h : s.Phased) (hp : s.phase ≠ .failed) : s.fail = none :=
  not_not.1 fun hf => hp (h.failIff.2 hf)

theorem State.Phased.endReason_eq_none {s : State} (h : s.Phased) (hp : s.phase ≠ .terminal) : s.endReason = .none :=
  not_not.1 fun he => hp (h.endIff.2 he)

/-- The reset value of `ctl` lasts through `INIT` (rules R39, R230). -/
theorem State.Phased.ctl_of_init {s : State} (h : s.Phased) (hp : s.phase = .init) : s.ctl = .idle := by
  rw [h.initLaunch hp]
  rfl

theorem PhaseEffect.phased {s t : State} (h : PhaseEffect s t)
    (hmono : decodedCount s.events ≤ decodedCount t.events) (hs : s.Phased) : t.Phased := by
  have unfinished : s.phase = .init ∨ s.phase = .running := by
    cases h with
    | enters hp => exact .inl hp
    | runs hp => exact .inr hp
    | ends hp => exact .inr hp
    | fails hp => exact hp
  have no_fail : s.fail = none := hs.fail_eq_none (by rcases unfinished with hp | hp <;> simp [hp])
  have no_end : s.endReason = .none := hs.endReason_eq_none (by rcases unfinished with hp | hp <;> simp [hp])
  have decoded (hp : s.phase = .running) : 0 < decodedCount t.events := (hs.runningCount (.inl hp)).trans_le hmono
  cases h with
  | enters hp ht hfail hend hcount => constructor <;> simp [ht, hfail, hend, no_fail, no_end, hcount]
  | runs hp ht hfail hend => constructor <;> simp [ht, hfail, hend, no_fail, no_end, decoded hp]
  | ends hp ht hctl hfail hend => constructor <;> simp [ht, hctl, hfail, hend, no_fail, decoded hp]
  | fails hp ht hfail hend => constructor <;> simp [ht, hfail, hend, no_end]

/-! ### The walk in progress -/

/-- The fields of the invariant about a walk and its packet. -/
structure State.Walking (s : State) : Prop where
  walkDirect   : s.ctl = .walkDirect → s.pkt.kind = .dbr
  walkIndirect : s.ctl = .walkIndirect → s.pkt.kind = .ibr
  walkCorr     : s.ctl = .walkCorr → s.pkt.kind = .corr
  remainingLe  : s.ctl ≠ .idle → s.remaining ≤ s.pkt.instructionCount
  directEntry  : s.ctl = .walkDirect → s.remaining = 0 → s.lastEntry ≠ none

theorem State.Walking.of_idle {s : State} (hc : s.ctl = .idle) : s.Walking := by
  constructor <;> simp [hc]

/-- A walk goes on when nothing but `remaining` and the last entry changes, the one falling and the other set. -/
theorem State.Walking.continues {s t : State} (hs : s.Walking) (hctl : t.ctl = s.ctl) (hpkt : t.pkt = s.pkt)
    (hrem : t.remaining ≤ s.remaining)
    (hentry : t.remaining = 0 → t.lastEntry = none → s.remaining = 0 ∧ s.lastEntry = none) : t.Walking where
  walkDirect   := by rw [hctl, hpkt]; exact hs.walkDirect
  walkIndirect := by rw [hctl, hpkt]; exact hs.walkIndirect
  walkCorr     := by rw [hctl, hpkt]; exact hs.walkCorr
  remainingLe  := by rw [hctl, hpkt]; exact fun hc => BitVec.le_trans hrem (hs.remainingLe hc)
  directEntry hc hr he := by
    obtain ⟨hr, he⟩ := hentry hr he
    exact hs.directEntry (hctl ▸ hc) hr he

/-- The guard of rule R154: within the count, the decrement does not wrap. -/
theorem State.takeParcels_remaining_le {n : Nat} {s : State} (h : n ≤ s.remaining.toNat) :
    (s.takeParcels n).remaining ≤ s.remaining := by
  have lt := s.remaining.isLt
  simp only [State.takeParcels, BitVec.le_def, BitVec.toNat_sub, BitVec.toNat_ofNat]
  omega

theorem StepEffect.walking {s t : State} (h : StepEffect s t) (hinit : s.phase = .init → s.ctl = .idle)
    (hs : s.Walking) : t.Walking := by
  cases h with
  | decodeFails hr hd => exact hs.continues rfl rfl (BitVec.le_refl _) .intro
  | enters hp hd => exact .of_idle (hinit hp)
  | expectsSync hp hd hk => exact .of_idle (hinit hp)
  | emptyDirect hp hc hl hd => exact .of_idle hc
  | startsDirect hp hc hl hn hd =>
    exact ⟨fun _ => rfl, nofun, nofun, fun _ => BitVec.le_refl _, fun _ hr => absurd hr hn⟩
  | startsIndirect hp hc hl hd => exact ⟨nofun, fun _ => rfl, nofun, fun _ => BitVec.le_refl _, nofun⟩
  | startsCorr hp hc hl hd => exact ⟨nofun, nofun, fun _ => rfl, fun _ => BitVec.le_refl _, nofun⟩
  | ignores hp hc hl hd hk => exact .of_idle hc
  | endsStream hp hc hl => exact .of_idle hc
  | visitMisses => exact hs.continues rfl rfl (BitVec.le_refl _) .intro
  | visitBadLength => exact hs.continues rfl rfl (BitVec.le_refl _) .intro
  | visitUnderflows => exact hs.continues rfl rfl (BitVec.le_refl _) (by simp)
  | visitBadOperand hp hc hr hx hn hle ht =>
    exact hs.continues rfl rfl (State.takeParcels_remaining_le hle) (by simp)
  | visits hp hc hr hx hn hle ht => exact hs.continues rfl rfl (State.takeParcels_remaining_le hle) (by simp)
  | directFails => exact hs.continues rfl rfl (BitVec.le_refl _) .intro
  | directResolves => exact .of_idle rfl
  | indirectResolves => exact .of_idle rfl
  | corrEnds => exact .of_idle rfl

/-! ### The visits -/

/-- What a step does to the records and to the last visit (rules R152, R154). -/
inductive VisitEffect (s t : State) : Prop
  /-- No instruction is visited; the start of a walk forgets the last entry. -/
  | none (hrecords : t.records = s.records) (hvisited : t.lastVisited = s.lastVisited)
      (hentry : t.lastEntry = s.lastEntry ∨ t.lastEntry = .none)
  /-- The instruction at `current_pc` is visited. -/
  | visit {e : Entry} {n : Nat} (hlookup : s.index.lookup s.currentPc = some e) (hlen : parcels e.len = some n)
      (hrecords : t.records = s.records ++ [⟨s.currentPc, e⟩]) (hvisited : t.lastVisited = s.currentPc)
      (hentry : t.lastEntry = some e)

theorem StepEffect.visitEffect {s t : State} (h : StepEffect s t) : VisitEffect s t := by
  cases h with
  | startsDirect => exact .none rfl rfl (.inr rfl)
  | startsIndirect => exact .none rfl rfl (.inr rfl)
  | startsCorr => exact .none rfl rfl (.inr rfl)
  | visitUnderflows hp hc hr hx hn => exact .visit hx hn rfl rfl rfl
  | visitBadOperand hp hc hr hx hn => exact .visit hx hn rfl rfl rfl
  | visits hp hc hr hx hn => exact .visit hx hn rfl rfl rfl
  | _ => exact .none rfl rfl (.inl rfl)

/-- The fields of the invariant about what has been visited. -/
structure State.Visited (s : State) : Prop where
  lastVisitedIn : ∀ e, s.lastEntry = some e → s.index.lookup s.lastVisited = some e
  recordsIn     : ∀ r ∈ s.records, s.index.lookup r.address = some r.entry ∧ r.entry.len ≠ 0 ∧ r.entry.len % 2 = 0

theorem VisitEffect.visited {s t : State} (h : VisitEffect s t) (hindex : t.index = s.index) (hs : s.Visited) :
    t.Visited := by
  cases h with
  | none hrecords hvisited hentry =>
    refine ⟨fun e he => ?_, by rw [hrecords, hindex]; exact hs.recordsIn⟩
    rcases hentry with hentry | hentry <;> rw [hentry] at he
    · rw [hindex, hvisited]
      exact hs.lastVisitedIn e he
    · cases he
  | visit hlookup hlen hrecords hvisited hentry =>
    obtain ⟨hpos, heven, -⟩ := parcels_eq_some_iff.1 hlen
    refine ⟨fun e he => ?_, fun r hr => ?_⟩
    · rw [hindex, hvisited, hlookup, ← hentry, he]
    · rw [hindex]
      rw [hrecords, List.mem_append, List.mem_singleton] at hr
      rcases hr with hr | rfl
      · exact hs.recordsIn r hr
      · exact ⟨hlookup, hpos, heven⟩

/-! ### The invariant -/

/-- Rule R86: an unscaled address is even. -/
theorem shiftLeft_one_even (v : Word) : (v <<< 1).toNat % 2 = 0 := by
  rw [BitVec.toNat_shiftLeft, Nat.shiftLeft_eq]
  omega

/-- Both writers of `last_absolute_address` write an unscaled value (rules R26, R58). -/
theorem step_lastAbsoluteAddress_even {s t : State} (h : step s = .next t)
    (hs : s.lastAbsoluteAddress.toNat % 2 = 0) : t.lastAbsoluteAddress.toNat % 2 = 0 := by
  rcases eq_or_ne t.lastAbsoluteAddress s.lastAbsoluteAddress with hkept | hne
  · rwa [hkept]
  · obtain ⟨heq, ⟨-, -, -, hpc⟩ | ⟨-, -, -, hpc⟩⟩ := writersOfLastAbsoluteAddress s t h hne <;> rw [heq, hpc]
    · exact shiftLeft_one_even _
    · exact shiftLeft_one_even _

/-- Settles O47: each group of the invariant's fields is kept by the effect on the registers it speaks of. -/
theorem invariantIsKept : Obligations.InvariantIsKept := by
  intro s t hs h
  have effect := (step_effect h).2
  obtain ⟨htrace, hindex, -⟩ := effect.inputs
  have phased : s.Phased :=
    ⟨hs.initLaunch, hs.runningCount, hs.failIff, hs.failOffset, hs.endIff, hs.walkPhase⟩
  have ⟨posLe, startLe, counted, countLe⟩ :=
    effect.packetEffect.accounted htrace ⟨hs.posLe, hs.startLe, hs.counted, hs.countLe⟩
  have ⟨initLaunch, runningCount, failIff, failOffset, endIff, walkPhase⟩ :=
    effect.phaseEffect.phased effect.packetEffect.decodedCount_mono phased
  have ⟨walkDirect, walkIndirect, walkCorr, remainingLe, directEntry⟩ :=
    effect.walking phased.ctl_of_init
      ⟨hs.walkDirect, hs.walkIndirect, hs.walkCorr, hs.remainingLe, hs.directEntry⟩
  have ⟨lastVisitedIn, recordsIn⟩ := effect.visitEffect.visited hindex ⟨hs.lastVisitedIn, hs.recordsIn⟩
  exact {
    indexWf := hindex ▸ hs.indexWf
    posLe, startLe, counted, countLe
    initLaunch, runningCount, failIff, failOffset, endIff, walkPhase
    walkDirect, walkIndirect, walkCorr, remainingLe, directEntry
    lastVisitedIn, recordsIn
    lastEven := step_lastAbsoluteAddress_even h hs.lastEven
    pktShaped := effect.packetEffect.shaped hs.pktShaped }

end Sys2Proof.Machine

/-! The effects of a step determine it, and the outputs are in none of its conditions (rules R32, R55, R56). -/

namespace Sys2Proof.Machine

/-- In `INIT` a packet that decodes is run as rule R151 says. -/
theorem step_reads_init {s : State} {x : Item} {r : Reader} {p : Packet} {onInit onRun : State → Result}
    (hw : s.cfg.wf = true) (hp : s.phase = .init) (hd : decodePacket s.cfg s.reader = .ok x r)
    (hx : runItem x (s.consumed r.pos) = handlePacket p onInit onRun (s.consumed r.pos)) :
    step s = onInit ((s.consumed r.pos).accept p) := by
  rw [step_reading hw (.inl hp), readPacket, hd]
  exact hx.trans (handlePacket_init hp)

/-- In `RUNNING`, between packets, it is run as rule R152 says. -/
theorem step_reads_running {s : State} {x : Item} {r : Reader} {p : Packet} {onInit onRun : State → Result}
    (hw : s.cfg.wf = true) (hp : s.phase = .running) (hc : s.ctl = .idle) (hl : s.pos ≠ s.trace.length)
    (hd : decodePacket s.cfg s.reader = .ok x r)
    (hx : runItem x (s.consumed r.pos) = handlePacket p onInit onRun (s.consumed r.pos)) :
    step s = onRun ((s.consumed r.pos).accept p) := by
  rw [step_reading hw (.inr ⟨hp, hc, hl⟩), readPacket, hd]
  exact hx.trans (handlePacket_running hp hc)

/-- The converse of `step_effect`: under a legal configuration, what a `StepEffect` says is what `step` answers. -/
theorem StepEffect.step_eq {s t : State} (hw : s.cfg.wf = true) (h : StepEffect s t) : step s = .next t := by
  cases h with
  | decodeFails hread hd => rw [step_reading hw hread, readPacket, hd]; rfl
  | enters hp hd => exact step_reads_init hw hp hd (execSync_eq ..)
  | @expectsSync x r hp hd hk =>
    rcases runItem_kinds x with ⟨_, _, _, rfl, -⟩ | ⟨_, _, rfl, -⟩ | ⟨_, _, _, _, rfl, -⟩ | ⟨_, _, _, rfl, -⟩ |
      ⟨c, hx, e⟩
    · exact absurd rfl hk
    · exact step_reads_init hw hp hd (execDbr_eq ..)
    · exact step_reads_init hw hp hd (execIbr_eq ..)
    · exact step_reads_init hw hp hd (execCorr_eq ..)
    · rw [hx]
      exact step_reads_init hw hp hd ((e _).trans (runOther_eq ..))
  | emptyDirect hp hc hl hd => exact step_reads_running hw hp hc hl hd (execDbr_eq ..)
  | startsDirect hp hc hl hn hd => exact (step_reads_running hw hp hc hl hd (execDbr_eq ..)).trans (if_neg hn)
  | startsIndirect hp hc hl hd => exact step_reads_running hw hp hc hl hd (execIbr_eq ..)
  | startsCorr hp hc hl hd => exact step_reads_running hw hp hc hl hd (execCorr_eq ..)
  | @ignores x r hp hc hl hd hk =>
    rcases runItem_kinds x with ⟨_, _, _, rfl, -⟩ | ⟨_, _, rfl, -⟩ | ⟨_, _, _, _, rfl, -⟩ | ⟨_, _, _, rfl, -⟩ |
      ⟨c, hx, e⟩
    · exact step_reads_running hw hp hc hl hd (execSync_eq ..)
    · simp [Item.packet, Instr.packet] at hk
    · simp [Item.packet, Instr.packet] at hk
    · simp [Item.packet, Instr.packet] at hk
    · rw [hx]
      exact step_reads_running hw hp hc hl hd ((e _).trans (runOther_eq ..))
  | endsStream hp hc hl => exact step_endOfStream hw hp hc hl
  | visitMisses hp hc hr hx => rw [step_visit hw hp hc hr]; simp [visit, hx]
  | visitBadLength hp hc hr hx hn => rw [step_visit hw hp hc hr]; simp [visit, hx, hn]
  | visitUnderflows hp hc hr hx hn hlt => rw [step_visit hw hp hc hr]; simp [visit, hx, hn, hlt]
  | visitBadOperand hp hc hr hx hn hle ht =>
    rw [step_visit hw hp hc hr]; simp [visit, hx, hn, Nat.not_lt.2 hle, ht]
  | visits hp hc hr hx hn hle ht => rw [step_visit hw hp hc hr]; simp [visit, hx, hn, Nat.not_lt.2 hle, ht]
  | directFails hp hc hr he ho =>
    rw [step_resolve hw hp (by simp [hc]) hr, resolve_walkDirect hc]; simp [resolveDirect, he, ho]
  | directResolves hp hc hr he ho =>
    rw [step_resolve hw hp (by simp [hc]) hr, resolve_walkDirect hc]; simp [resolveDirect, he, ho]
  | indirectResolves hp hc hr => exact (step_resolve hw hp (by simp [hc]) hr).trans (resolve_walkIndirect hc)
  | corrEnds hp hc hr => exact (step_resolve hw hp (by simp [hc]) hr).trans (resolve_walkCorr hc)

/-- The state with other outputs. -/
def State.withOutputs (rs : List Record) (es : List Event) (s : State) : State := { s with records := rs, events := es }

/-- `t` has the outputs of `s` and then `rs` and `es`, and is an effect of `s` whatever outputs the two continue. -/
structure Appends (s t : State) (rs : List Record) (es : List Event) : Prop where
  records : t.records = s.records ++ rs
  events  : t.events = s.events ++ es
  effect  : ∀ rs0 es0, StepEffect (s.withOutputs rs0 es0) (t.withOutputs (rs0 ++ rs) (es0 ++ es))

/-- An effect that appends nothing. -/
theorem Appends.nothing {s t : State} (hr : t.records = s.records) (he : t.events = s.events)
    (h : ∀ rs0 es0, StepEffect (s.withOutputs rs0 es0) (t.withOutputs rs0 es0)) : Appends s t [] [] where
  records := by simpa using hr
  events  := by simpa using he
  effect rs0 es0 := by simpa using h rs0 es0

/-- An effect that appends events only. -/
theorem Appends.onlyEvents {s t : State} {es : List Event} (hr : t.records = s.records) (he : t.events = s.events ++ es)
    (h : ∀ rs0 es0, StepEffect (s.withOutputs rs0 es0) (t.withOutputs rs0 (es0 ++ es))) : Appends s t [] es where
  records := by simpa using hr
  events  := he
  effect rs0 es0 := by simpa using h rs0 es0

/-- An effect that appends records only. -/
theorem Appends.onlyRecords {s t : State} {rs : List Record} (hr : t.records = s.records ++ rs)
    (he : t.events = s.events)
    (h : ∀ rs0 es0, StepEffect (s.withOutputs rs0 es0) (t.withOutputs (rs0 ++ rs) es0)) : Appends s t rs [] where
  records := hr
  events  := by simpa using he
  effect rs0 es0 := by simpa using h rs0 es0

/-- A read packet appends its `Decoded` event (rule R127), an ignored one an `Ignored` event after it (rule R160), a
visit that finds whole parcels its record (rule R154), and no other effect appends anything. -/
theorem StepEffect.appends {s t : State} (h : StepEffect s t) : ∃ rs es, Appends s t rs es := by
  cases h with
  | decodeFails hr hd => exact ⟨_, _, .nothing rfl rfl fun _ _ => .decodeFails hr hd⟩
  | enters hp hd => exact ⟨_, _, .onlyEvents rfl rfl fun _ _ => .enters hp hd⟩
  | expectsSync hp hd hk => exact ⟨_, _, .onlyEvents rfl rfl fun _ _ => .expectsSync hp hd hk⟩
  | emptyDirect hp hc hl hd => exact ⟨_, _, .onlyEvents rfl rfl fun _ _ => .emptyDirect hp hc hl hd⟩
  | startsDirect hp hc hl hn hd => exact ⟨_, _, .onlyEvents rfl rfl fun _ _ => .startsDirect hp hc hl hn hd⟩
  | startsIndirect hp hc hl hd => exact ⟨_, _, .onlyEvents rfl rfl fun _ _ => .startsIndirect hp hc hl hd⟩
  | startsCorr hp hc hl hd => exact ⟨_, _, .onlyEvents rfl rfl fun _ _ => .startsCorr hp hc hl hd⟩
  | @ignores x _ hp hc hl hd hk =>
    have in_order (es : List Event) := List.append_assoc es [.decoded x.packet] [.ignored x.packet.kind]
    exact ⟨_, _, .onlyEvents rfl (in_order _) fun _ es0 => in_order es0 ▸ .ignores hp hc hl hd hk⟩
  | endsStream hp hc hl => exact ⟨_, _, .nothing rfl rfl fun _ _ => .endsStream hp hc hl⟩
  | visitMisses hp hc hr hx => exact ⟨_, _, .nothing rfl rfl fun _ _ => .visitMisses hp hc hr hx⟩
  | visitBadLength hp hc hr hx hn => exact ⟨_, _, .nothing rfl rfl fun _ _ => .visitBadLength hp hc hr hx hn⟩
  | visitUnderflows hp hc hr hx hn hlt =>
    exact ⟨_, _, .onlyRecords rfl rfl fun _ _ => .visitUnderflows hp hc hr hx hn hlt⟩
  | visitBadOperand hp hc hr hx hn hle ht =>
    exact ⟨_, _, .onlyRecords rfl rfl fun _ _ => .visitBadOperand hp hc hr hx hn hle ht⟩
  | visits hp hc hr hx hn hle ht => exact ⟨_, _, .onlyRecords rfl rfl fun _ _ => .visits hp hc hr hx hn hle ht⟩
  | directFails hp hc hr he ho => exact ⟨_, _, .nothing rfl rfl fun _ _ => .directFails hp hc hr he ho⟩
  | directResolves hp hc hr he ho => exact ⟨_, _, .nothing rfl rfl fun _ _ => .directResolves hp hc hr he ho⟩
  | indirectResolves hp hc hr => exact ⟨_, _, .nothing rfl rfl fun _ _ => .indirectResolves hp hc hr⟩
  | corrEnds hp hc hr => exact ⟨_, _, .nothing rfl rfl fun _ _ => .corrEnds hp hc hr⟩

/-- Settles O50: the step's effect appends the same to any outputs, and an effect is what the step answers. -/
theorem outputsAreAppendedAndNeverRead : Obligations.OutputsAreAppendedAndNeverRead := by
  intro s t h
  obtain ⟨hw, effect⟩ := step_effect h
  obtain ⟨rs, es, happends⟩ := effect.appends
  exact ⟨rs, es, happends.records, happends.events, fun rs0 es0 => (happends.effect rs0 es0).step_eq hw⟩

end Sys2Proof.Machine

/-! The Instruction Index has at most one entry at an address (rules R50, R53): none is listed twice in its canonical
form, so the entry that a lookup finds first is the only one. -/

namespace Sys2Proof.Machine

/-- An address below every listed one is not listed. -/
theorem Index.not_mem_of_lt {x : Index} {k : Nat} (h : ∀ b ∈ x, k < b.1) (e : Entry) : (k, e) ∉ x :=
  fun hmem => Nat.lt_irrefl k (h _ hmem)

theorem Index.find_eq_some_iff {x : Index} (hx : x.Pairwise fun a b => a.1 < b.1) (a : Nat) (e : Entry) :
    x.find a = some e ↔ (a, e) ∈ x := by
  induction x with
  | nil => simp [Index.find]
  | cons b x ih =>
    obtain ⟨k, f⟩ := b
    obtain ⟨hk, hx⟩ := List.pairwise_cons.1 hx
    by_cases h : k = a
    · subst h
      simp [Index.find, Index.not_mem_of_lt hk, eq_comm]
    · simp [Index.find, h, Ne.symm h, ih hx]

theorem Index.lookup_eq_some_iff {x : Index} (hx : Index.wf x = true) (a : Word) (e : Entry) :
    x.lookup a = some e ↔ (a.toNat, e) ∈ x :=
  Index.find_eq_some_iff ((Index.wf_iff x).1 hx).1 a.toNat e

/-- Settles O20: a hit is membership in the canonical form, and a miss is that no entry is a hit. -/
theorem lookupIsByExactAddress : Obligations.LookupIsByExactAddress := by
  intro x a hx
  refine ⟨Index.lookup_eq_some_iff hx a, ?_⟩
  calc x.lookup a = none
      ↔ ∀ e, x.lookup a ≠ some e := Option.eq_none_iff_forall_ne_some
    _ ↔ ∀ e, (a.toNat, e) ∉ x := forall_congr' fun e => not_congr (Index.lookup_eq_some_iff hx a e)

end Sys2Proof.Machine

/-! Every decoded packet goes through the shared handling, which reads the phase and `ctl` before anything else (rules
R61, R150). -/

namespace Sys2Proof.Machine

theorem handlePacket_terminal {p : Packet} {f g : State → Result} {s : State} (h : s.phase = .terminal) :
    handlePacket p f g s = .fault .runEnded := by
  simp [handlePacket, h]

theorem handlePacket_failed {p : Packet} {f g : State → Result} {s : State} (h : s.phase = .failed) :
    handlePacket p f g s = .fault .runFailed := by
  simp [handlePacket, h]

theorem handlePacket_walking {p : Packet} {f g : State → Result} {s : State} (h : s.phase = .running)
    (hc : s.ctl ≠ .idle) : handlePacket p f g s = .fault .walkInProgress := by
  simp [handlePacket, h, hc]

/-- Whatever the item, running it is the shared handling of its packet. -/
theorem runItem_eq_handlePacket (x : Item) : ∃ f g, ∀ s, runItem x s = handlePacket x.packet f g s := by
  rcases runItem_kinds x with ⟨m, fa, ts, rfl, e⟩ | ⟨n, ts, rfl, e⟩ | ⟨b, n, d, ts, rfl, e⟩ | ⟨v, n, ts, rfl, e⟩ |
    ⟨c, hx, e⟩
  · exact ⟨_, _, fun s => (e s).trans (execSync_eq ..)⟩
  · exact ⟨_, _, fun s => (e s).trans (execDbr_eq ..)⟩
  · exact ⟨_, _, fun s => (e s).trans (execIbr_eq ..)⟩
  · exact ⟨_, _, fun s => (e s).trans (execCorr_eq ..)⟩
  · rw [hx]
    exact ⟨_, _, fun s => (e s).trans (runOther_eq ..)⟩

theorem exec_eq_handlePacket (i : Instr) : ∃ f g, ∀ s, exec i s = handlePacket i.packet f g s :=
  runItem_eq_handlePacket (.row i)

/-- Settles O31: an instruction is the shared handling of its packet, which stops where no packet may be handled. -/
theorem packetsWaitTheirTurn : Obligations.PacketsWaitTheirTurn := by
  intro i s
  obtain ⟨f, g, hexec⟩ := exec_eq_handlePacket i
  rw [hexec]
  exact ⟨handlePacket_terminal, handlePacket_failed, handlePacket_walking⟩

end Sys2Proof.Machine

/-! The layouts of rules R77 to R81: a run is read whole, its field is the sum of rule R102, and the Tcode byte alone
chooses what follows it (rule R120). -/

namespace Sys2Proof

open Sys2Proof.Claims

/-! ### Runs and their values -/

/-- `IsRun` in the terms of the reader: the tags are the bytes' own. -/
theorem isRun_iff {tag : Tag} {run : List Byte} :
    IsRun tag run ↔ ∃ xs b, run = xs ++ [b] ∧ mseo b = tag ∧ ∀ x ∈ xs, mseo x ≠ tag := by
  simp only [IsRun, ne_eq, ← BitVec.toNat_inj, mseo_toNat]

/-- Rule R101: whatever follows a run, a field read returns the run and stops just past it. -/
theorem readFieldUntil_run {tag : Tag} {run : List Byte} (h : IsRun tag run) (p : Nat) (rest : List Byte) :
    readFieldUntil tag ⟨p, run ++ rest⟩ = .ok run ⟨p + run.length, rest⟩ := by
  obtain ⟨xs, b, rfl, hb, hxs⟩ := isRun_iff.1 h
  simpa [readFieldUntil, Nat.add_assoc] using readRunFrom_run p hxs hb rest

theorem groupSum_eq_ofDigits (off : Nat) (bs : List Byte) :
    groupSum off bs = 2 ^ off * Nat.ofDigits 64 (bs.map fun b => (mdo b).toNat) := by
  induction bs generalizing off with
  | nil => rfl
  | cons b bs ih =>
    rw [groupSum, ih, List.map_cons, Nat.ofDigits_cons, pow_add]
    ring

theorem groupSum_eq_sum (off : Nat) (bs : List Byte) :
    groupSum off bs = ∑ i ∈ Finset.range bs.length, payload bs i * 2 ^ (off + 6 * i) := by
  induction bs generalizing off with
  | nil => rfl
  | cons b bs ih =>
    rw [groupSum, ih, List.length_cons, Finset.sum_range_succ', add_comm, mdo_toNat]
    simp [payload, Nat.mul_add, Nat.add_assoc, Nat.add_comm 6]

/-- Rule R102: what `PackK` sums is the value of the field. -/
theorem fieldValue_eq_groupSum (v0 k : Nat) (run : List Byte) : fieldValue v0 k run = v0 + groupSum k run.tail := by
  cases run with
  | nil => rfl
  | cons b bs => rw [List.tail_cons, groupSum_eq_sum]; rfl

/-- Rule R83: a field that fits is assembled, under either overflow policy. -/
theorem packK_of_fits {c : Cfg} {v0 k : Nat} {run : List Byte} (h : Fits c (fieldValue v0 k run)) (r : Reader) :
    packK c v0 k run r = .ok (BitVec.ofNat 64 (fieldValue v0 k run)) r := by
  rw [fieldValue_eq_groupSum] at h ⊢
  rcases packK_cases c v0 k run r with ⟨e, -⟩ | ⟨-, hfault, hlarge⟩
  · exact e
  · rcases h with htrunc | hsmall
    · rw [hfault] at htrunc; cases htrunc
    · omega

theorem firstByte_eq_getD (run : List Byte) : firstByte run = run.getD 0 0 := by cases run <;> rfl

theorem mdo_firstByte (run : List Byte) : (mdo (firstByte run)).toNat = payload run 0 := by
  rw [mdo_toNat, firstByte_eq_getD, payload]

theorem bits76_firstByte (run : List Byte) : (bits76 (firstByte run)).toNat = high2 run := by
  rw [bits76_toNat, firstByte_eq_getD, high2]

theorem bits52_firstByte (run : List Byte) : (bits52 (firstByte run)).toNat = low4 run := by
  rw [bits52_toNat, firstByte_eq_getD, low4]

theorem pack6_of_fits {c : Cfg} {run : List Byte} (h : Fits c (fieldValue (payload run 0) 6 run)) (r : Reader) :
    pack6 c run r = .ok (BitVec.ofNat 64 (fieldValue (payload run 0) 6 run)) r := by
  rw [pack6, mdo_firstByte, packK_of_fits h]

/-! ### The Tcode byte -/

theorem mdo_eq_iff {t : Byte} {tc : Tcode} : mdo t = tc ↔ t.toNat / 4 = tc.toNat := by
  rw [← BitVec.toNat_inj, mdo_toNat]

theorem decodePacket_sync {c : Cfg} {t : Byte} (h : t.toNat / 4 = c.tcSync.toNat) (p : Nat) (bs : List Byte) :
    decodePacket c ⟨p, t :: bs⟩ = decodeSync c ⟨p + 1, bs⟩ := by
  simp [decodePacket, mdo_eq_iff.2 h]

theorem decodePacket_dbr {c : Cfg} (hw : c.wf = true) {t : Byte} (h : t.toNat / 4 = c.tcDbr.toNat) (p : Nat)
    (bs : List Byte) : decodePacket c ⟨p, t :: bs⟩ = decodeDbr c ⟨p + 1, bs⟩ := by
  obtain ⟨dbr_sync, -⟩ := Cfg.wf_distinct hw
  simp [decodePacket, mdo_eq_iff.2 h, dbr_sync]

theorem decodePacket_ibr {c : Cfg} (hw : c.wf = true) {t : Byte} (h : t.toNat / 4 = c.tcIbr.toNat) (p : Nat)
    (bs : List Byte) : decodePacket c ⟨p, t :: bs⟩ = decodeIbr c ⟨p + 1, bs⟩ := by
  obtain ⟨-, ibr_sync, ibr_dbr, -⟩ := Cfg.wf_distinct hw
  simp [decodePacket, mdo_eq_iff.2 h, ibr_sync, ibr_dbr]

theorem decodePacket_corr {c : Cfg} (hw : c.wf = true) {t : Byte} (h : t.toNat / 4 = c.tcCorr.toNat) (p : Nat)
    (bs : List Byte) : decodePacket c ⟨p, t :: bs⟩ = decodeCorr c ⟨p + 1, bs⟩ := by
  obtain ⟨-, -, -, corr_sync, corr_dbr, corr_ibr, -⟩ := Cfg.wf_distinct hw
  simp [decodePacket, mdo_eq_iff.2 h, corr_sync, corr_dbr, corr_ibr]

theorem decodePacket_other {c : Cfg} (hw : c.wf = true) {t : Byte} {tc : Tcode} (hmem : tc ∈ c.tcOther)
    (h : t.toNat / 4 = tc.toNat) (p : Nat) (bs : List Byte) :
    decodePacket c ⟨p, t :: bs⟩ = decodeOther c t ⟨p + 1, bs⟩ := by
  obtain ⟨-, -, -, -, -, -, other_distinct⟩ := Cfg.wf_distinct hw
  obtain ⟨not_sync, not_dbr, not_ibr, not_corr⟩ := other_distinct tc hmem
  simp [decodePacket, mdo_eq_iff.2 h, not_sync, not_dbr, not_ibr, not_corr, hmem]

/-! ### The layouts -/

/-- Settles O6: run A is read, then its marker compared, and only then the field of run A and run B looked at. -/
theorem syncLayout : Obligations.SyncLayout := by
  intro c p t a rest hw ht ha
  refine ⟨fun hmarker b hb hfitA hfitB => ?_, fun hmarker => ?_⟩
  · have marker : bits52 (firstByte a) = c.syncMarker := by rw [← BitVec.toNat_inj, bits52_firstByte, hmarker]
    simp [decodePacket_sync ht, decodeSync, readFieldUntil_run ha, readFieldUntil_run hb, marker, bits76_firstByte,
      packK_of_fits hfitA, pack6_of_fits hfitB]
  · have marker : bits52 (firstByte a) ≠ c.syncMarker := by rwa [ne_eq, ← BitVec.toNat_inj, bits52_firstByte]
    simp [decodePacket_sync ht, decodeSync, readFieldUntil_run ha, marker, ← bits52_firstByte]

/-- Settles O7: two runs, both with a full group in byte 0. -/
theorem dbrLayout : Obligations.DbrLayout := by
  intro c p t a b rest hw ht ha hb hfitA hfitB
  simp [decodePacket_dbr hw ht, decodeDbr, readFieldUntil_run ha, readFieldUntil_run hb, pack6_of_fits hfitA,
    pack6_of_fits hfitB]

/-- Settles O8: three runs, the first with the branch type above 4 bits of the count. -/
theorem ibrLayout : Obligations.IbrLayout := by
  intro c p t a b d rest hw ht ha hb hd hfitA hfitB hfitD
  have code (n : Nat) (h : high2 a = n) : bits76 (firstByte a) = BitVec.ofNat 2 n := by
    rw [← h, ← bits76_firstByte, BitVec.ofNat_toNat, BitVec.setWidth_eq]
  refine ⟨branchTypeOfCode (bits76 (firstByte a)), fun h => by rw [code 0 h]; rfl, fun h => by rw [code 1 h]; rfl,
    fun h => by rw [code 2 h]; rfl, fun h => by rw [code 3 h]; rfl, ?_⟩
  simp [decodePacket_ibr hw ht, decodeIbr, readFieldUntil_run ha, readFieldUntil_run hb, readFieldUntil_run hd,
    bits52_firstByte, packK_of_fits hfitA, pack6_of_fits hfitB, pack6_of_fits hfitD]

/-- Settles O9: two runs, the first with the event code above 4 bits of the count. -/
theorem corrLayout : Obligations.CorrLayout := by
  intro c p t a b rest hw ht ha hb hfitA hfitB
  simp [decodePacket_corr hw ht, decodeCorr, readFieldUntil_run ha, readFieldUntil_run hb, bits52_firstByte,
    packK_of_fits hfitA, pack6_of_fits hfitB, ← bits76_firstByte]

/-- Whether the opcode table has a row for the Tcode or not, only `kind` is decoded (rule R125). -/
theorem otherItem_packet (tc : Tcode) : (otherItem tc).packet = otherPacket tc := by
  unfold otherItem
  split_ifs with h2 h8 h11 h12 h27 h28 h29
  · rw [h2]; rfl
  · rw [h8]; rfl
  · rw [h11]; rfl
  · rw [h12]; rfl
  · rw [h27]; rfl
  · rw [h28]; rfl
  · rw [h29]; rfl
  · rfl

/-- Rule R81: the Tcode byte is the packet under `TCODE_ONLY`, and where it carries `TAG_EOM`. -/
theorem decodeOther_alone {c : Cfg} {t : Byte} (h : c.unhandledPolicy = .tcodeOnly ∨ mseo t = c.tagEom) (r : Reader) :
    decodeOther c t r = .ok (otherItem (mdo t)) r := by
  refine if_neg fun ⟨hskip, htag⟩ => h.elim (fun honly => ?_) htag
  rw [hskip] at honly
  cases honly

/-- Rule R81: under `SKIP_TO_EOM` any other Tcode byte is followed by a run that is skipped. -/
theorem decodeOther_skip {c : Cfg} {t : Byte} (hskip : c.unhandledPolicy = .skipToEom) (htag : mseo t ≠ c.tagEom)
    {run : List Byte} (hrun : IsRun c.tagEom run) (p : Nat) (rest : List Byte) :
    decodeOther c t ⟨p, run ++ rest⟩ = .ok (otherItem (mdo t)) ⟨p + run.length, rest⟩ := by
  rw [decodeOther, if_pos ⟨hskip, htag⟩, readFieldUntil_run hrun, Read.ok_andThen]

/-- Settles O10: the item depends on the Tcode alone, and the policy and the tag decide whether a run is skipped. -/
theorem otherLayout : Obligations.OtherLayout := by
  intro c p t tc rest hw hmem ht
  have tag_iff : mseo t = c.tagEom ↔ t.toNat % 4 = c.tagEom.toNat := by rw [← BitVec.toNat_inj, mseo_toNat]
  have item : otherItem (mdo t) = otherItem tc := by rw [mdo_eq_iff.2 ht]
  refine ⟨otherItem tc, otherItem_packet tc, fun halone => ?_, fun hskip htag run hrun => ?_⟩
  · rw [decodePacket_other hw hmem ht, decodeOther_alone (halone.imp_right tag_iff.2), item]
  · rw [decodePacket_other hw hmem ht, decodeOther_skip hskip (mt tag_iff.1 htag) hrun, item]

end Sys2Proof

/-! The canonical encoding of a field (rules R82 and R92): its groups are the base-64 digits of the bits above byte 0's,
so it is a run of the fewest bytes that hold the value. -/

namespace Sys2Proof

open Sys2Proof.Claims

/-- Enough fuel makes the groups the base-64 digits. -/
theorem groupsOf_toNat {fuel v : Nat} (h : v < 64 ^ fuel) :
    (groupsOf fuel v).map BitVec.toNat = Nat.digits 64 v := by
  induction fuel generalizing v with
  | zero =>
    obtain rfl : v = 0 := by simpa using h
    simp [groupsOf]
  | succ fuel ih =>
    rcases Nat.eq_zero_or_pos v with rfl | hv
    · simp [groupsOf]
    · have higher : v / 64 < 64 ^ fuel := Nat.div_lt_of_lt_mul (by rwa [pow_succ'] at h)
      simp [groupsOf, hv.ne', ih higher, Nat.digits_def' (by decide : 1 < 64) hv]

/-- Eleven groups hold what a `W`-bit value has above byte 0's two or more bits. -/
theorem high_bits_lt {k : Nat} (hk : 2 ≤ k) (v : Word) : v.toNat / 2 ^ k < 64 ^ 11 := by
  have four_le : 2 ^ 2 ≤ 2 ^ k := Nat.pow_le_pow_right (by decide) hk
  have := v.isLt
  exact Nat.div_lt_of_lt_mul (by omega)

theorem tagRun_mdo (tag : Tag) (ps : List (BitVec 6)) : (tagRun tag ps).map mdo = ps := by
  induction ps with
  | nil => rfl
  | cons p ps ih =>
    cases ps with
    | nil => simp [tagRun]
    | cons q qs => simp [tagRun, ih]

/-- The terminator is on the last byte of the encoding and on no other (rules R72, R92). -/
theorem tagRun_isRun (tag : Tag) (p : BitVec 6) (ps : List (BitVec 6)) : IsRun tag (tagRun tag (p :: ps)) := by
  rw [isRun_iff]
  induction ps generalizing p with
  | nil => exact ⟨[], traceByte p tag, rfl, mseo_traceByte .., nofun⟩
  | cons q ps ih =>
    obtain ⟨xs, b, hrun, hb, hxs⟩ := ih q
    have continues : mseo (traceByte p (continuationTag tag)) ≠ tag := by
      rw [mseo_traceByte]
      exact continuationTag_ne tag
    exact ⟨traceByte p (continuationTag tag) :: xs, b, congrArg (_ :: ·) hrun, hb,
      List.forall_mem_cons.2 ⟨continues, hxs⟩⟩

theorem encodeRun_mdo (tag : Tag) (p0 : BitVec 6) (k : Nat) (v : Word) :
    (encodeRun tag p0 k v).map mdo = p0 :: groupsOf 11 (v.toNat / 2 ^ k) :=
  tagRun_mdo ..

/-- Past byte 0 the payloads are the base-64 digits of the bits that byte 0 does not carry. -/
theorem encodeRun_tail_digits {k : Nat} (hk : 2 ≤ k) (tag : Tag) (p0 : BitVec 6) (v : Word) :
    (encodeRun tag p0 k v).tail.map (fun b => (mdo b).toNat) = Nat.digits 64 (v.toNat / 2 ^ k) := by
  rw [← groupsOf_toNat (high_bits_lt hk v), ← List.tail_cons (a := p0) (as := groupsOf _ _), ← encodeRun_mdo tag p0 k v,
    ← List.map_tail, List.map_map]
  rfl

/-- Rule R92: byte 0 and as many groups as the bits above byte 0's `k` take, as a bound on the value. -/
theorem encodeRun_length_le_iff {k : Nat} (hk : 2 ≤ k) (tag : Tag) (p0 : BitVec 6) (v : Word) (m : Nat) :
    (encodeRun tag p0 k v).length ≤ m + 1 ↔ v.toNat < 2 ^ (k + 6 * m) := by
  have length_eq : (encodeRun tag p0 k v).length = (Nat.digits 64 (v.toNat / 2 ^ k)).length + 1 := by
    rw [← groupsOf_toNat (high_bits_lt hk v), List.length_map, ← List.length_cons (a := p0),
      ← encodeRun_mdo tag p0 k v, List.length_map]
  rw [length_eq, Nat.add_le_add_iff_right, Nat.digits_length_le_iff (by decide), Nat.div_lt_iff_lt_mul (by positivity),
    pow_add, pow_mul, mul_comm]
  rfl

/-- The same as a number of bytes. -/
theorem encodeRun_length {k : Nat} (hk : 2 ≤ k) (tag : Tag) (p0 : BitVec 6) (v : Word) :
    (encodeRun tag p0 k v).length = if v.toNat < 2 ^ k then 1 else 1 + (Nat.size v.toNat - k + 5) / 6 := by
  have bytes_iff (m : Nat) : (encodeRun tag p0 k v).length ≤ m + 1 ↔ Nat.size v.toNat ≤ k + 6 * m := by
    rw [encodeRun_length_le_iff hk, Nat.size_le]
  have nonempty : (encodeRun tag p0 k v).length ≠ 0 := by
    rw [← List.length_map (f := mdo), encodeRun_mdo]
    simp
  have enough := (bytes_iff ((Nat.size v.toNat - k + 5) / 6)).2 (by omega)
  have needed := (bytes_iff ((encodeRun tag p0 k v).length - 1)).1 (by omega)
  have one_byte_iff : Nat.size v.toNat ≤ k ↔ v.toNat < 2 ^ k := Nat.size_le
  split <;> omega

/-- The bits in byte 0 and the groups above them make up the value. -/
theorem encodeRun_fieldValue {k : Nat} (hk : 2 ≤ k) (tag : Tag) (p0 : BitVec 6) (v : Word) :
    fieldValue (v.toNat % 2 ^ k) k (encodeRun tag p0 k v) = v.toNat := by
  rw [fieldValue_eq_groupSum, groupSum_eq_ofDigits, encodeRun_tail_digits hk, Nat.ofDigits_digits, Nat.mod_add_div]

theorem isRun_ne_nil {tag : Tag} {run : List Byte} (h : IsRun tag run) : run ≠ [] := by
  obtain ⟨xs, b, rfl, -⟩ := h
  simp

/-- A field of `k` bits and `n` groups is a value of `k + 6n` bits. -/
theorem fieldValue_lt {v0 k : Nat} (hv : v0 < 2 ^ k) (run : List Byte) :
    fieldValue v0 k run < 2 ^ (k + 6 * (run.length - 1)) := by
  have groups_lt : Nat.ofDigits 64 (run.tail.map fun b => (mdo b).toNat) < 64 ^ (run.length - 1) := by
    have digit_lt : ∀ d ∈ run.tail.map fun b => (mdo b).toNat, d < 64 := by
      simp only [List.mem_map]
      rintro _ ⟨b, -, rfl⟩
      exact (mdo b).isLt
    simpa using Nat.ofDigits_lt_base_pow_length (by decide) digit_lt
  rw [fieldValue_eq_groupSum, groupSum_eq_ofDigits, pow_add, pow_mul]
  calc v0 + 2 ^ k * Nat.ofDigits 64 (run.tail.map fun b => (mdo b).toNat)
      < 2 ^ k * (Nat.ofDigits 64 (run.tail.map fun b => (mdo b).toNat) + 1) := by rw [mul_add]; omega
    _ ≤ 2 ^ k * 64 ^ (run.length - 1) := Nat.mul_le_mul_left _ groups_lt

/-- Settles O5: any run of the value has room for it, and the canonical run is no longer than the value needs. -/
theorem canonicalRunIsShortest : Obligations.CanonicalRunIsShortest := by
  intro tag p0 k v hk
  refine ⟨encodeRun_length hk tag p0 v, tagRun_isRun .., encodeRun_fieldValue hk tag p0 v, fun run v0 hrun hv0 hv => ?_⟩
  have room : v.toNat < 2 ^ (k + 6 * (run.length - 1)) := hv ▸ fieldValue_lt hv0 run
  have := (encodeRun_length_le_iff hk tag p0 v (run.length - 1)).2 room
  have := List.length_pos_iff.2 (isRun_ne_nil hrun)
  omega

end Sys2Proof

/-! The operand text (rules R90 and R91): each part of the parser accepts what the grammar says and gives its value. -/

namespace Sys2Proof.Machine

open Sys2Proof.Claims

/-! ### Digits -/

theorem eq_ofNat_iff_toNat_eq {ch : Char} {n : Nat} (h : n < 128) : ch = Char.ofNat n ↔ ch.toNat = n := by
  have toNat_ofNat : (Char.ofNat n).toNat = n := by rw [Char.toNat_ofNat, if_pos (.inl (by omega))]
  rw [← Char.toNat_inj, toNat_ofNat]

theorem decDig_iff {ch : Char} {d : Nat} : DecDig ch d ↔ d < 10 ∧ ch.toNat = 48 + d :=
  and_congr_right fun _ => eq_ofNat_iff_toNat_eq (by omega)

theorem hexDig_iff {ch : Char} {d : Nat} :
    HexDig ch d ↔ DecDig ch d ∨ 10 ≤ d ∧ d < 16 ∧ (ch.toNat = 87 + d ∨ ch.toNat = 55 + d) :=
  or_congr_right <| and_congr_right fun _ => and_congr_right fun _ =>
    or_congr (eq_ofNat_iff_toNat_eq (by omega)) (eq_ofNat_iff_toNat_eq (by omega))

theorem decDigit_eq_some_iff {ch : Char} {d : Nat} : decDigit ch = some d ↔ DecDig ch d := by
  rw [decDig_iff, decDigit]
  split
  · rw [Option.some_inj]; omega
  · simp only [reduceCtorEq, false_iff]; omega

theorem hexDigit_eq_some_iff {ch : Char} {d : Nat} : hexDigit ch = some d ↔ HexDig ch d := by
  rw [hexDig_iff, decDig_iff, hexDigit]
  split
  · rw [Option.some_inj]; omega
  · split
    · rw [Option.some_inj]; omega
    · rw [decDigit_eq_some_iff, decDig_iff]; omega

/-! ### Numerals -/

/-- The digits read so far stand above those still to come, whatever the base and its digits. -/
theorem digitsFrom_eq_some_iff {digit : Char → Option Nat} {dig : Char → Nat → Prop}
    (hdig : ∀ {ch d}, digit ch = some d ↔ dig ch d) {base acc : Nat} {s : Text} {n : Nat} :
    digitsFrom base digit acc s = some n ↔
      ∃ ds, List.Forall₂ dig s ds ∧ n = Nat.ofDigits base (ds.reverse ++ [acc]) := by
  induction s generalizing acc with
  | nil => simp [digitsFrom, eq_comm]
  | cons ch cs ih =>
    simp only [List.forall₂_cons_left_iff, ← hdig]
    cases hch : digit ch with
    | none => simp [digitsFrom, hch]
    | some d => simp [digitsFrom, hch, ih, Nat.ofDigits_append, Nat.ofDigits_cons, add_comm d, mul_comm base]

theorem digits_eq_some_iff {digit : Char → Option Nat} {dig : Char → Nat → Prop}
    (hdig : ∀ {ch d}, digit ch = some d ↔ dig ch d) {base : Nat} {s : Text} {n : Nat} :
    digits base digit s = some n ↔ Numeral base dig s n := by
  cases s with
  | nil => simp [digits, Numeral]
  | cons ch cs =>
    rw [digits, if_neg (List.cons_ne_nil ch cs), digitsFrom_eq_some_iff hdig]
    refine exists_congr fun ds => ?_
    rw [Nat.ofDigits_append_zero]
    refine ⟨fun ⟨hds, hn⟩ => ⟨?_, hds, hn⟩, And.right⟩
    rintro rfl
    cases hds

/-- Every character of a decimal numeral is a decimal digit. -/
theorem decimal_toNat {s : Text} {n : Nat} (h : Numeral 10 DecDig s n) :
    ∀ ch ∈ s, 48 ≤ ch.toNat ∧ ch.toNat < 58 := by
  obtain ⟨ds, -, hds, -⟩ := h
  clear n
  induction hds with
  | nil => nofun
  | cons hd _ ih =>
    have := decDig_iff.1 hd
    exact List.forall_mem_cons.2 ⟨by omega, ih⟩

/-! ### Offsets -/

/-- No decimal numeral begins with `0x`, so `0x` decides the base. -/
theorem magnitude_eq_some_iff {s : Text} {n : Nat} : magnitude s = some n ↔ Unsigned s n := by
  unfold magnitude Unsigned
  split
  · rename_i hs
    have not_decimal : ¬ Numeral 10 DecDig ('0' :: 'x' :: hs) n := fun h =>
      absurd (decimal_toNat h 'x' (by simp)) (by decide)
    simp [digits_eq_some_iff hexDigit_eq_some_iff, not_decimal]
  · rename_i hno0x
    have not_hex : ¬ ∃ hs, s = '0' :: 'x' :: hs ∧ Numeral 16 HexDig hs n := fun ⟨hs, e, _⟩ => hno0x hs e
    simp [digits_eq_some_iff decDigit_eq_some_iff, not_hex]

/-- An unsigned token has no sign. -/
theorem not_unsigned_minus (s : Text) (n : Nat) : ¬ Unsigned ('-' :: s) n := by
  rintro (⟨hs, e, -⟩ | h)
  · cases e
  · exact absurd (decimal_toNat h '-' (by simp)) (by decide)

theorem inOffsetRange_eq_some_iff {u v : Int} :
    inOffsetRange u = some v ↔ -2 ^ 63 ≤ v ∧ v ≤ 2 ^ 63 - 1 ∧ v = u := by
  unfold inOffsetRange
  split
  · rw [Option.some_inj]; omega
  · simp only [reduceCtorEq, false_iff]; omega

theorem parseOffset_minus (s : Text) :
    parseOffset ('-' :: s) = (magnitude s).bind fun m => inOffsetRange (-(m : Int)) := by
  rw [parseOffset]
  cases magnitude s <;> rfl

theorem parseOffset_unsigned {s : Text} (h : ∀ t, s ≠ '-' :: t) :
    parseOffset s = (magnitude s).bind fun m => inOffsetRange m := by
  unfold parseOffset
  split
  · exact absurd rfl (h _)
  · cases magnitude s <;> rfl

/-- Settles O17: a token either has a minus sign, and then it is no unsigned token, or it has none. -/
theorem parseOffsetIsItsGrammar : Obligations.ParseOffsetIsItsGrammar := by
  intro s v
  by_cases h : ∃ t, s = '-' :: t
  · obtain ⟨t, rfl⟩ := h
    simp only [parseOffset_minus, Option.bind_eq_some_iff, magnitude_eq_some_iff, inOffsetRange_eq_some_iff]
    constructor
    · rintro ⟨m, hm, hlow, hhigh, hv⟩
      exact ⟨hlow, hhigh, .inr ⟨t, m, rfl, hm, hv⟩⟩
    · rintro ⟨hlow, hhigh, ⟨n, hn, -⟩ | ⟨_, n, ⟨⟩, hn, hv⟩⟩
      · exact absurd hn (not_unsigned_minus t n)
      · exact ⟨n, hn, hlow, hhigh, hv⟩
  · have no_sign : ∀ t, s ≠ '-' :: t := fun t e => h ⟨t, e⟩
    simp only [parseOffset_unsigned no_sign, Option.bind_eq_some_iff, magnitude_eq_some_iff, inOffsetRange_eq_some_iff]
    constructor
    · rintro ⟨m, hm, hlow, hhigh, hv⟩
      exact ⟨hlow, hhigh, .inl ⟨m, hm, hv⟩⟩
    · rintro ⟨hlow, hhigh, ⟨n, hn, hv⟩ | ⟨t, -, hs, -⟩⟩
      · exact ⟨n, hn, hlow, hhigh, hv⟩
      · exact absurd hs (no_sign t)

/-! ### The last token -/

theorem isBlank_iff {ch : Char} : isBlank ch = true ↔ Blank ch := by
  simp [isBlank, Blank, ← Char.toNat_inj]

theorem dropWhile_blanks {l s : Text} (hl : ∀ ch ∈ l, Blank ch) (hs : ∀ ch, s.head? = some ch → ¬ Blank ch) :
    (l ++ s).dropWhile isBlank = s := by
  rw [List.dropWhile_append_of_pos fun ch h => isBlank_iff.2 (hl ch h)]
  cases s with
  | nil => rfl
  | cons ch cs => exact List.dropWhile_cons_of_neg (mt isBlank_iff.1 (hs ch rfl))

/-- Rule R91: what is trimmed is the blanks around a token that has none at its ends. -/
theorem trim_blanks {l tok r : Text} (hl : ∀ ch ∈ l, Blank ch) (hr : ∀ ch ∈ r, Blank ch)
    (hfirst : ∀ ch, tok.head? = some ch → ¬ Blank ch) (hlast : ∀ ch, tok.getLast? = some ch → ¬ Blank ch) :
    trim (l ++ tok ++ r) = tok := by
  cases tok with
  | nil =>
    have all_dropped : (l ++ r ++ []).dropWhile isBlank = [] :=
      dropWhile_blanks (List.forall_mem_append.2 ⟨hl, hr⟩) nofun
    rw [List.append_nil] at all_dropped
    rw [trim, List.append_nil, all_dropped]
    rfl
  | cons ch cs =>
    have front : (l ++ (ch :: cs ++ r)).dropWhile isBlank = ch :: cs ++ r := dropWhile_blanks hl hfirst
    have back : (r.reverse ++ (ch :: cs).reverse).dropWhile isBlank = (ch :: cs).reverse :=
      dropWhile_blanks (by simpa using hr) (by rwa [List.head?_reverse])
    rw [trim, List.append_assoc, front, List.reverse_append, back, List.reverse_reverse]

theorem reverse_ne_comma {s : Text} (h : ',' ∉ s) : ∀ ch ∈ s.reverse, decide (ch ≠ ',') = true := by
  intro ch hch
  rw [decide_eq_true_iff]
  rintro rfl
  exact h (List.mem_reverse.1 hch)

theorem lastToken_of_no_comma {s : Text} (h : ',' ∉ s) : lastToken s = s := by
  rw [lastToken, List.takeWhile_eq_self_iff.2 (reverse_ne_comma h), List.reverse_reverse]

theorem lastToken_after_comma {s : Text} (h : ',' ∉ s) (pre : Text) : lastToken (pre ++ ',' :: s) = s := by
  rw [lastToken, List.reverse_append, List.reverse_cons, List.append_assoc,
    List.takeWhile_append_of_pos (reverse_ne_comma h)]
  simp

/-- Settles O18: the last token is the text after the last comma, and trimming it leaves what `ParseOffset` is given. -/
theorem operandOffsetReadsTheLastToken : Obligations.OperandOffsetReadsTheLastToken := by
  intro pre l tok r hcomma hblank hfirst hlast
  obtain ⟨hl, hr⟩ := List.forall_mem_append.1 hblank
  have trimmed := trim_blanks hl hr hfirst hlast
  exact ⟨by rw [operandOffset, lastToken_of_no_comma hcomma, trimmed],
    by rw [operandOffset, lastToken_after_comma hcomma, trimmed]⟩

end Sys2Proof.Machine

/-! The samples of rule R75 and the address transform of rule R86. -/

namespace Sys2Proof.Machine

/-- Settles O16: the decoder is evaluated on each word. -/
theorem sampleWordsDecode : Obligations.SampleWordsDecode :=
  ⟨by decide, by decide, by decide, by decide, by decide, by decide, by decide, by decide, by decide, by decide,
    by decide⟩

theorem unscale_toNat (v : Word) : (unscale v).toNat = 2 * v.toNat % 2 ^ 64 := by
  rw [unscale, BitVec.toNat_shiftLeft, Nat.shiftLeft_eq, mul_comm, pow_one]

/-- Settles O19: all three are arithmetic modulo `2^64` on the doubled value. -/
theorem unscaleDoubles : Obligations.UnscaleDoubles := by
  refine ⟨fun v => ⟨unscale_toNat v, shiftLeft_one_even v⟩, fun v => ?_, fun v w hv hw h => ?_⟩
  · rw [← BitVec.toNat_inj, unscale_toNat, unscale_toNat, BitVec.toNat_add, BitVec.toNat_ofNat]
    omega
  · rw [← BitVec.toNat_inj, unscale_toNat, unscale_toNat] at h
    exact BitVec.eq_of_toNat_eq (by omega)

end Sys2Proof.Machine

/-! Forwarded data do not steer (rules R84, R85, R217): states that agree but for them have the same effects, and so do
packets, since no meaning reads their forwarded fields. -/

namespace Sys2Proof.Machine

open Sys2Proof.Claims

/-- The state with other forwarded data: the events, and the timestamp, branch type and event code of the packet. -/
def State.withForwarded (es : List Event) (timestamp : Word) (branchType : BranchType) (evcode : BitVec 2) (s : State) :
    State :=
  { s with events := es, pkt := { s.pkt with timestamp, branchType, evcode } }

/-- States that agree but for the forwarded data are one state with two versions of these. -/
theorem exists_withForwarded {s u : State} (h : withoutForwarded s = withoutForwarded u) :
    ∃ es ts b v, u = s.withForwarded es ts b v := by
  refine ⟨u.events, u.pkt.timestamp, u.pkt.branchType, u.pkt.evcode, ?_⟩
  change u = (withoutForwarded s).withForwarded u.events u.pkt.timestamp u.pkt.branchType u.pkt.evcode
  rw [h]
  rfl

/-- What decides whether a step or a packet is taken is no forwarded datum. -/
theorem control_eq {s u : State} (h : withoutForwarded s = withoutForwarded u) :
    s.cfg = u.cfg ∧ s.phase = u.phase ∧ s.ctl = u.ctl := by
  obtain ⟨es, ts, b, v, rfl⟩ := exists_withForwarded h
  exact ⟨rfl, rfl, rfl⟩

/-- The effect of a step does not depend on the forwarded data. -/
theorem StepEffect.withForwarded {s t : State} (h : StepEffect s t) (es : List Event) (ts : Word) (b : BranchType)
    (v : BitVec 2) :
    ∃ t', StepEffect (s.withForwarded es ts b v) t' ∧ withoutForwarded t = withoutForwarded t' := by
  cases h with
  | decodeFails hr hd => exact ⟨_, .decodeFails hr hd, rfl⟩
  | enters hp hd => exact ⟨_, .enters hp hd, rfl⟩
  | expectsSync hp hd hk => exact ⟨_, .expectsSync hp hd hk, rfl⟩
  | emptyDirect hp hc hl hd => exact ⟨_, .emptyDirect hp hc hl hd, rfl⟩
  | startsDirect hp hc hl hn hd => exact ⟨_, .startsDirect hp hc hl hn hd, rfl⟩
  | startsIndirect hp hc hl hd => exact ⟨_, .startsIndirect hp hc hl hd, rfl⟩
  | startsCorr hp hc hl hd => exact ⟨_, .startsCorr hp hc hl hd, rfl⟩
  | ignores hp hc hl hd hk => exact ⟨_, .ignores hp hc hl hd hk, rfl⟩
  | endsStream hp hc hl => exact ⟨_, .endsStream hp hc hl, rfl⟩
  | visitMisses hp hc hr hx => exact ⟨_, .visitMisses hp hc hr hx, rfl⟩
  | visitBadLength hp hc hr hx hn => exact ⟨_, .visitBadLength hp hc hr hx hn, rfl⟩
  | visitUnderflows hp hc hr hx hn hlt => exact ⟨_, .visitUnderflows hp hc hr hx hn hlt, rfl⟩
  | visitBadOperand hp hc hr hx hn hle ht => exact ⟨_, .visitBadOperand hp hc hr hx hn hle ht, rfl⟩
  | visits hp hc hr hx hn hle ht => exact ⟨_, .visits hp hc hr hx hn hle ht, rfl⟩
  | directFails hp hc hr he ho => exact ⟨_, .directFails hp hc hr he ho, rfl⟩
  | directResolves hp hc hr he ho => exact ⟨_, .directResolves hp hc hr he ho, rfl⟩
  | indirectResolves hp hc hr => exact ⟨_, .indirectResolves hp hc hr, rfl⟩
  | corrEnds hp hc hr => exact ⟨_, .corrEnds hp hc hr, rfl⟩

theorem sameReplay_next {t u : State} (h : withoutForwarded t = withoutForwarded u) : SameReplay (.next t) (.next u) :=
  .inl ⟨t, u, rfl, rfl, h⟩

theorem sameReplay_fault (f : Fault) : SameReplay (.fault f) (.fault f) := .inr (.inl ⟨f, rfl, rfl⟩)

theorem sameReplay_refused (r : Refusal) : SameReplay (.refused r) (.refused r) := .inr (.inr ⟨r, rfl, rfl⟩)

theorem step_sameReplay_of_next {s u t : State} (h : withoutForwarded s = withoutForwarded u) (hs : step s = .next t) :
    SameReplay (step s) (step u) := by
  obtain ⟨hw, effect⟩ := step_effect hs
  obtain ⟨es, ts, b, v, rfl⟩ := exists_withForwarded h
  obtain ⟨t', effect', same⟩ := effect.withForwarded es ts b v
  rw [hs, effect'.step_eq (s := s.withForwarded es ts b v) hw]
  exact sameReplay_next same

theorem sameReplay_symm {x y : Result} (h : SameReplay x y) : SameReplay y x := by
  rcases h with ⟨t, u, rfl, rfl, h⟩ | ⟨f, rfl, rfl⟩ | ⟨r, rfl, rfl⟩
  · exact sameReplay_next h.symm
  · exact sameReplay_fault f
  · exact sameReplay_refused r

/-- The two steps have the same effect, or stop alike: the stops are decided by the configuration and the phase. -/
theorem step_sameReplay {s u : State} (h : withoutForwarded s = withoutForwarded u) : SameReplay (step s) (step u) := by
  obtain ⟨cfg, phase, -⟩ := control_eq h
  cases hw : s.cfg.wf with
  | false =>
    rw [step_badConfig hw, step_badConfig (cfg ▸ hw)]
    exact sameReplay_refused _
  | true =>
    have hw' : u.cfg.wf = true := cfg ▸ hw
    cases hp : s.phase with
    | init =>
      obtain ⟨t, ht⟩ := readPacket_completes (s := s) (.inl hp)
      exact step_sameReplay_of_next h ((step_reading hw (.inl hp)).trans ht)
    | running =>
      rcases step_running_next_or_noLastEntry hw hp with ⟨t, ht⟩ | hs
      · exact step_sameReplay_of_next h ht
      · rcases step_running_next_or_noLastEntry hw' (phase ▸ hp) with ⟨t, ht⟩ | hu
        · exact sameReplay_symm (step_sameReplay_of_next h.symm ht)
        · rw [hs, hu]
          exact sameReplay_fault _
    | terminal =>
      rw [step_terminal hw hp, step_terminal hw' (phase ▸ hp)]
      exact sameReplay_fault _
    | failed =>
      rw [step_failed hw hp, step_failed hw' (phase ▸ hp)]
      exact sameReplay_fault _

/-- A packet without its forwarded fields. -/
def packetWithoutForwarded (p : Packet) : Packet := { p with timestamp := 0, branchType := .indirect, evcode := 0 }

/-- A meaning that does the same from states that agree but for the forwarded data. -/
def Unsteered (f : State → Result) : Prop :=
  ∀ s u : State, withoutForwarded s = withoutForwarded u → SameReplay (f s) (f u)

/-- An update that neither reads nor writes them, but perhaps to append an event, is such a meaning. -/
theorem unsteered_next {g : State → State}
    (hg : ∀ s, withoutForwarded (g s) = withoutForwarded (g (withoutForwarded s))) :
    Unsteered fun s => .next (g s) := by
  intro s u h
  refine sameReplay_next ?_
  rw [hg s, h, ← hg u]

theorem unsteered_raise (e : Err) : Unsteered (raise e) := unsteered_next fun _ => rfl

/-- Accounting for a packet forwards its fields (rules R120, R127), and its handling reads the phase and `ctl` only. -/
theorem handlePacket_sameReplay {p q : Packet} (hpq : packetWithoutForwarded p = packetWithoutForwarded q)
    {f g : State → Result} (hf : Unsteered f) (hg : Unsteered g) {s u : State} (h : withoutForwarded s = withoutForwarded u) :
    SameReplay (handlePacket p f g s) (handlePacket q f g u) := by
  have accepted : withoutForwarded (s.accept p) = withoutForwarded (u.accept q) :=
    congrArg₂ (fun (s : State) (p : Packet) => { s.countPacket with pkt := p }) h hpq
  obtain ⟨-, phase, ctl⟩ := control_eq h
  cases hp : s.phase with
  | init =>
    rw [handlePacket_init hp, handlePacket_init (phase ▸ hp)]
    exact hf _ _ accepted
  | running =>
    by_cases hc : s.ctl = .idle
    · rw [handlePacket_running hp hc, handlePacket_running (phase ▸ hp) (ctl ▸ hc)]
      exact hg _ _ accepted
    · rw [handlePacket_walking hp hc, handlePacket_walking (phase ▸ hp) (ctl ▸ hc)]
      exact sameReplay_fault _
  | terminal =>
    rw [handlePacket_terminal hp, handlePacket_terminal (phase ▸ hp)]
    exact sameReplay_fault _
  | failed =>
    rw [handlePacket_failed hp, handlePacket_failed (phase ▸ hp)]
    exact sameReplay_fault _

/-- Rule R152: whether a direct branch is empty is decided by its count. -/
theorem unsteered_direct (n : Word) :
    Unsteered fun t => if n = 0 then raise .emptyDirectBranch t else .next (t.startWalk .walkDirect n) := by
  intro s u h
  dsimp only
  split
  · exact unsteered_raise _ _ _ h
  · exact unsteered_next (g := State.startWalk .walkDirect n) (fun _ => rfl) _ _ h

/-! The four meanings that carry such data are each the shared handling of their packet. -/

theorem execSync_sameReplay (m : BitVec 4) (a t t' : Word) {s u : State} (h : withoutForwarded s = withoutForwarded u) :
    SameReplay (execSync m a t s) (execSync m a t' u) := by
  rw [execSync_eq, execSync_eq]
  exact handlePacket_sameReplay (by rfl) (unsteered_next fun _ => by rfl) (unsteered_next fun _ => by rfl) h

theorem execDbr_sameReplay (n t t' : Word) {s u : State} (h : withoutForwarded s = withoutForwarded u) :
    SameReplay (execDbr n t s) (execDbr n t' u) := by
  rw [execDbr_eq, execDbr_eq]
  exact handlePacket_sameReplay (by rfl) (unsteered_raise _) (unsteered_direct n) h

theorem execIbr_sameReplay (b b' : BranchType) (n d t t' : Word) {s u : State}
    (h : withoutForwarded s = withoutForwarded u) : SameReplay (execIbr b n d t s) (execIbr b' n d t' u) := by
  rw [execIbr_eq, execIbr_eq]
  exact handlePacket_sameReplay (by rfl) (unsteered_raise _) (unsteered_next fun _ => by rfl) h

theorem execCorr_sameReplay (v v' : BitVec 2) (n t t' : Word) {s u : State}
    (h : withoutForwarded s = withoutForwarded u) : SameReplay (execCorr v n t s) (execCorr v' n t' u) := by
  rw [execCorr_eq, execCorr_eq]
  exact handlePacket_sameReplay (by rfl) (unsteered_raise _) (unsteered_next fun _ => by rfl) h

/-- Settles O52: the effect of a step, and the shared handling of a packet, leave the forwarded data unread. -/
theorem forwardedDataDoNotSteer : Obligations.ForwardedDataDoNotSteer :=
  ⟨fun _ _ => step_sameReplay, fun _ _ h =>
    ⟨fun m a t t' => execSync_sameReplay m a t t' h, fun n t t' => execDbr_sameReplay n t t' h,
      fun b b' n d t t' => execIbr_sameReplay b b' n d t t' h, fun v v' n t t' => execCorr_sameReplay v v' n t t' h⟩⟩

end Sys2Proof.Machine

/-! The Bitfield Reader, and decoding as the inverse of encoding (rules R92, R100 to R105): a canonical run is read back
whole, its byte 0 gives the flag bits it was written with, and its field packs to the value, so each packet is. -/

namespace Sys2Proof

open Sys2Proof.Claims

/-! ### The reader on any bytes -/

/-- Settles O1: one equation of `readByte` for each clause. -/
theorem readByteConsumesOneByte : Obligations.ReadByteConsumesOneByte :=
  ⟨readByte_cons, readByte_nil⟩

/-- `Unended` in the terms of the reader: no byte carries the tag. -/
theorem unended_iff {tag : Tag} {bs : List Byte} : Unended tag bs ↔ ∀ b ∈ bs, mseo b ≠ tag := by
  simp only [Unended, ne_eq, ← BitVec.toNat_inj, mseo_toNat]

/-- Settles O2: a run is read whole, and bytes without the terminator are all read. -/
theorem fieldReadStopsAtItsTerminator : Obligations.FieldReadStopsAtItsTerminator :=
  ⟨fun _ p _ rest hrun => readFieldUntil_run hrun p rest, fun _ p _ h => readRunFrom_eof p (unended_iff.1 h)⟩

/-- Rule R102: `PackK` in terms of the field's value, the overflow under either policy included. -/
theorem packK_eq_ite (c : Cfg) (v0 k : Nat) (run : List Byte) (r : Reader) :
    packK c v0 k run r =
      if 2 ^ 64 ≤ fieldValue v0 k run ∧ c.fieldOverflow = .fault then .err (.fieldOverflow r.pos) r
      else .ok (BitVec.ofNat 64 (fieldValue v0 k run)) r := by
  rw [fieldValue_eq_groupSum]
  rcases packK_cases c v0 k run r with ⟨e, hfits⟩ | ⟨e, hfault, hlarge⟩
  · rw [e, if_neg]
    rintro ⟨hlarge, hfault⟩
    rcases hfits with htrunc | hsmall
    · rw [hfault] at htrunc; cases htrunc
    · omega
  · rw [e, if_pos ⟨hlarge, hfault⟩]

/-- Rule R103: with a full group in byte 0, group `i` stands at offset `6i`. -/
theorem fieldValue_full_group {run : List Byte} (h : run ≠ []) :
    fieldValue (payload run 0) 6 run = ∑ i ∈ Finset.range run.length, payload run i * 2 ^ (6 * i) := by
  cases run with
  | nil => exact absurd rfl h
  | cons b bs =>
    calc fieldValue (payload (b :: bs) 0) 6 (b :: bs)
        = groupSum 0 (b :: bs) := by
          rw [fieldValue_eq_groupSum, ← mdo_firstByte, groupSum, pow_zero, mul_one]; rfl
      _ = ∑ i ∈ Finset.range (b :: bs).length, payload (b :: bs) i * 2 ^ (6 * i) := by
          simp only [groupSum_eq_sum, zero_add]

/-- Settles O3: `PackK` checks the field's value, and `Pack6` is `PackK` of a full group. -/
theorem packedFieldValue : Obligations.PackedFieldValue :=
  ⟨packK_eq_ite, fun _ _ _ h => ⟨by rw [pack6, mdo_firstByte], fieldValue_full_group h⟩⟩

/-! ### The reader on a canonical run -/

theorem encodeRun_isRun (tag : Tag) (p0 : BitVec 6) (k : Nat) (v : Word) : IsRun tag (encodeRun tag p0 k v) :=
  tagRun_isRun ..

@[simp] theorem mdo_firstByte_encodeRun (tag : Tag) (p0 : BitVec 6) (k : Nat) (v : Word) :
    mdo (firstByte (encodeRun tag p0 k v)) = p0 := by
  have payloads := encodeRun_mdo tag p0 k v
  cases hrun : encodeRun tag p0 k v with
  | nil => simp [hrun] at payloads
  | cons b bs =>
    rw [hrun] at payloads
    exact (List.cons.inj payloads).1

/-- A field whose byte 0 carries the `k` low bits of a value packs to the value: it fits, so the policy is not asked. -/
theorem packK_encodeRun {k : Nat} (hk : 2 ≤ k) (c : Cfg) (tag : Tag) (p0 : BitVec 6) (v : Word) (r : Reader) :
    packK c (v.toNat % 2 ^ k) k (encodeRun tag p0 k v) r = .ok v r := by
  have value := encodeRun_fieldValue hk tag p0 v
  have fits : Fits c (fieldValue (v.toNat % 2 ^ k) k (encodeRun tag p0 k v)) := .inr (value.trans_lt v.isLt)
  rw [packK_of_fits fits, value, BitVec.ofNat_toNat, BitVec.setWidth_eq]

/-- Settles O4: the encoding is a run, and byte 0's bits and its groups make up the value. -/
theorem fieldRoundTrip : Obligations.FieldRoundTrip := by
  intro c tag p0 k p v rest hk
  refine ⟨readFieldUntil_run (encodeRun_isRun ..) p rest, ?_, packK_encodeRun (by omega) c tag p0 v⟩
  rw [← mdo_firstByte, mdo_firstByte_encodeRun]

/-! ### Decoding undoes encoding -/

@[simp] theorem readFieldUntil_encodeRun (tag : Tag) (p0 : BitVec 6) (k : Nat) (v : Word) (p : Nat) (rest : List Byte) :
    readFieldUntil tag ⟨p, encodeRun tag p0 k v ++ rest⟩ =
      .ok (encodeRun tag p0 k v) ⟨p + (encodeRun tag p0 k v).length, rest⟩ :=
  readFieldUntil_run (encodeRun_isRun ..) p rest

@[simp] theorem readFieldUntil_encodeRun6 (tag : Tag) (v : Word) (p : Nat) (rest : List Byte) :
    readFieldUntil tag ⟨p, encodeRun6 tag v ++ rest⟩ = .ok (encodeRun6 tag v) ⟨p + (encodeRun6 tag v).length, rest⟩ :=
  readFieldUntil_encodeRun ..

@[simp] theorem bits76_firstByte_encodeRun (tag : Tag) (flags : BitVec 2) (low : BitVec 4) (k : Nat) (v : Word) :
    bits76 (firstByte (encodeRun tag (flags ++ low) k v)) = flags := by
  rw [← traceByte_mdo_mseo (firstByte _), mdo_firstByte_encodeRun, bits76_traceByte]

@[simp] theorem bits52_firstByte_encodeRun (tag : Tag) (flags : BitVec 2) (low : BitVec 4) (k : Nat) (v : Word) :
    bits52 (firstByte (encodeRun tag (flags ++ low) k v)) = low := by
  rw [← traceByte_mdo_mseo (firstByte _), mdo_firstByte_encodeRun, bits52_traceByte]

/-- The low bits as the encoder writes them into byte 0. -/
theorem packK_setWidth_encodeRun {k : Nat} (hk : 2 ≤ k) (c : Cfg) (tag : Tag) (p0 : BitVec 6) (v : Word) (r : Reader) :
    packK c (v.setWidth k).toNat k (encodeRun tag p0 k v) r = .ok v r := by
  rw [BitVec.toNat_setWidth, packK_encodeRun hk]

@[simp] theorem pack6_encodeRun6 (c : Cfg) (tag : Tag) (v : Word) (r : Reader) :
    pack6 c (encodeRun6 tag v) r = .ok v r := by
  rw [pack6, encodeRun6, mdo_firstByte_encodeRun, packK_setWidth_encodeRun (by decide)]

theorem tcodeByte_toNat (tc : Tcode) : (tcodeByte tc).toNat / 4 = tc.toNat :=
  mdo_eq_iff.1 (mdo_traceByte tc 0b00)

/-- Rules R81, R92: the Tcode byte is the packet, or a run of one byte follows it and is skipped. -/
theorem decodePacket_encodeOther {c : Cfg} (hw : c.wf = true) {tc : Tcode} (hmem : c.tcOther.contains tc = true)
    (p : Nat) (rest : List Byte) :
    decodePacket c ⟨p, encodeOther c tc ++ rest⟩ = .ok (otherItem tc) ⟨p + (encodeOther c tc).length, rest⟩ := by
  have decode_tcode (tag : Tag) (bs : List Byte) :
      decodePacket c ⟨p, traceByte tc tag :: bs⟩ = decodeOther c (traceByte tc tag) ⟨p + 1, bs⟩ :=
    decodePacket_other hw (List.contains_iff_mem.1 hmem) (mdo_eq_iff.1 (mdo_traceByte tc tag)) p bs
  cases policy : c.unhandledPolicy with
  | skipToEom =>
    have skipped : IsRun c.tagEom [traceByte 0 c.tagEom] := tagRun_isRun c.tagEom 0 []
    have continues : mseo (traceByte tc (continuationTag c.tagEom)) ≠ c.tagEom := by
      rw [mseo_traceByte]
      exact continuationTag_ne c.tagEom
    simpa [encodeOther, policy, decode_tcode] using decodeOther_skip policy continues skipped (p + 1) rest
  | tcodeOnly =>
    simp [encodeOther, policy, tcodeByte, decode_tcode, decodeOther_alone (.inl policy)]

/-- Settles O15: after the Tcode byte each run is read back whole and gives its fields, as each handled kind reads them;
the packets without fields are decoded from their Tcode. -/
theorem decodeUndoesEncode : Obligations.DecodeUndoesEncode := by
  intro c i p rest hw hi
  cases i with
  | sync marker fullAddress timestamp =>
    obtain rfl : marker = c.syncMarker := eq_of_beq hi
    simp [encode, decodePacket_sync (tcodeByte_toNat _), decodeSync, packK_setWidth_encodeRun, -BitVec.toNat_setWidth,
      Nat.add_assoc, Nat.add_comm 1]
  | dbr instructionCount timestamp =>
    simp [encode, decodePacket_dbr hw (tcodeByte_toNat _), decodeDbr, Nat.add_assoc, Nat.add_comm 1]
  | ibr branchType instructionCount differentialAddress timestamp =>
    simp [encode, decodePacket_ibr hw (tcodeByte_toNat _), decodeIbr, packK_setWidth_encodeRun,
      -BitVec.toNat_setWidth, Nat.add_assoc, Nat.add_comm 1]
  | corr evcode instructionCount timestamp =>
    simp [encode, decodePacket_corr hw (tcodeByte_toNat _), decodeCorr, packK_setWidth_encodeRun,
      -BitVec.toNat_setWidth, Nat.add_assoc, Nat.add_comm 1]
  | other2 => exact decodePacket_encodeOther hw hi p rest
  | other8 => exact decodePacket_encodeOther hw hi p rest
  | other11 => exact decodePacket_encodeOther hw hi p rest
  | other12 => exact decodePacket_encodeOther hw hi p rest
  | other27 => exact decodePacket_encodeOther hw hi p rest
  | other28 => exact decodePacket_encodeOther hw hi p rest
  | other29 => exact decodePacket_encodeOther hw hi p rest

end Sys2Proof

/-! Decodes that fail (rules R126, R128): the Tcode no kind has, and what the step keeps when a decode raises an error. -/

namespace Sys2Proof.Machine

/-- Settles O11: past the Tcode byte, the dispatch of rule R120 reaches its last branch, which reads nothing more. -/
theorem unknownTcodeIsInvalid : Obligations.UnknownTcodeIsInvalid := by
  intro c p t rest tc htc not_sync not_dbr not_ibr not_corr not_other
  obtain rfl : mdo t = tc := mdo_eq_iff.2 htc.symm
  simp [decodePacket, not_sync, not_dbr, not_ibr, not_corr, not_other]

/-- Settles O24: the step is the effect `decodeFails`, which writes `pkt_start`, `pos` and the failure alone, and no
decode moves `pos` back. -/
theorem failedDecodeReturnsNoPacket : Obligations.FailedDecodeReturnsNoPacket := by
  intro s e r hw hread hdecode
  have failed : step s = .next ((s.consumed r.pos).failWith (.decode e)) :=
    StepEffect.step_eq hw (.decodeFails hread hdecode)
  have forward : s.pos ≤ r.pos := (decodePacket_err_pos hdecode).1
  exact ⟨_, failed, rfl, rfl, rfl, rfl, rfl, rfl, rfl, forward⟩

end Sys2Proof.Machine

/-! The replay engine: a step that reads a packet in full (rules R151, R152, R160), the visits and resolutions of a walk
(rules R154 to R162), and what a state that is over reports and does (rules R163, R165). -/

namespace Sys2Proof.Machine

open Sys2Proof.Claims

/-! ### Which steps are taken -/

/-- Rule R156: with a last entry wherever a direct walk ends, every walk's end is resolved. -/
theorem resolve_completes {s : State} (hc : s.ctl ≠ .idle) (hentry : s.ctl = .walkDirect → s.lastEntry ≠ none) :
    ∃ t, resolve s = .next t := by
  cases hk : s.ctl with
  | idle => exact absurd hk hc
  | walkDirect =>
    rw [resolve_walkDirect hk]
    rcases resolveDirect_cases s with ⟨hnone, -⟩ | ⟨_, -, -, h⟩ | ⟨_, _, -, -, h⟩
    · exact absurd hnone (hentry hk)
    · exact ⟨_, h⟩
    · exact ⟨_, h⟩
  | walkIndirect => exact ⟨_, resolve_walkIndirect hk⟩
  | walkCorr => exact ⟨_, resolve_walkCorr hk⟩

/-- Settles O48: each of the four things a step can be is taken; a resolution is, since the invariant gives a direct
walk its last entry. -/
theorem unfinishedRunsTakeAStep : Obligations.UnfinishedRunsTakeAStep := by
  intro s hinv hw hphase
  have reads (hread : s.Reading) : ∃ t, step s = .next t := step_reading hw hread ▸ readPacket_completes hread
  rcases hphase with hp | hp
  · exact reads (.inl hp)
  · by_cases hc : s.ctl = .idle
    · by_cases hl : s.pos = s.trace.length
      · exact ⟨_, step_endOfStream hw hp hc hl⟩
      · exact reads (.inr ⟨hp, hc, hl⟩)
    · by_cases hr : s.remaining = 0
      · rw [step_resolve hw hp hc hr]
        exact resolve_completes hc fun hdirect => hinv.directEntry hdirect hr
      · rw [step_visit hw hp hc hr]
        exact visit_completes _ s

/-- Settles O42: `step` looks at the phase before it reads anything. -/
theorem finalStatesHaveNoStep : Obligations.FinalStatesHaveNoStep :=
  fun _ hw => ⟨step_terminal hw, step_failed hw⟩

/-- Settles O45: one case of `status` for each phase. -/
theorem statusOfAFinalState : Obligations.StatusOfAFinalState := by
  intro s
  refine ⟨fun hp => ?_, fun f hp hf => ?_, fun hp => ?_⟩
  · simp [status, hp]
  · simp [status, hp, hf]
  · rcases hp with hp | hp <;> simp [status, hp]

/-! ### Packets -/

/-- Settles O21: reading a packet is decoding it and running what was decoded. -/
theorem stepRunsTheDecodedInstruction : Obligations.StepRunsTheDecodedInstruction := by
  intro s i r hw hread hdecode
  have decoded : decodePacket s.cfg s.reader = .ok (.row i) r := hdecode
  rw [step_reading hw hread, readPacket, decoded]
  rfl

/-- Rule R211: an error of a packet that has been counted is that packet's, whose index is the count before it. -/
theorem failWith_accept {e : Err} (he : ∀ d, e ≠ .decode d) (p : Packet) (s : State) :
    (s.accept p).failWith e = failedAs e s.packetsProcessed (accounted p s) := by
  have index : failIndex e (s.accept p).packetsProcessed = s.packetsProcessed := by
    rw [failIndex_of_not_decode he, State.accept_packetsProcessed, BitVec.add_sub_cancel]
  rw [State.failWith, index]
  rfl

/-- Rule R160: an ignored packet leaves two events, that it was decoded and that it was ignored. -/
theorem ignore_accept (p : Packet) (k : Kind) (s : State) :
    (s.accept p).ignore k =
      { s with
        pkt := p
        events := s.events ++ [.decoded p, .ignored k]
        packetsProcessed := s.packetsProcessed + 1 } := by
  have events : ((s.accept p).ignore k).events = s.events ++ [.decoded p, .ignored k] := List.append_assoc ..
  rw [← events]
  rfl

/-- Settles O22: the three outcomes are the effects `decodeFails`, `enters` and `expectsSync`. -/
theorem initStepTakesOneSync : Obligations.InitStepTakesOneSync := by
  intro s hw hp
  refine ⟨fun e r hread => ?_, fun m a t r hread => ?_, fun x r hread hkind => ?_⟩
  · exact StepEffect.step_eq hw (.decodeFails (.inl hp) hread)
  · exact StepEffect.step_eq hw (.enters hp hread)
  · exact (StepEffect.step_eq hw (.expectsSync hp hread hkind)).trans
      (congrArg _ (failWith_accept (e := .expectedSync _) nofun ..))

/-- Settles O23: each outcome is one effect of `StepEffect`. -/
theorem runStepHandlesEveryKind : Obligations.RunStepHandlesEveryKind := by
  intro s hw hp hc
  refine ⟨step_endOfStream hw hp hc, fun hl => ⟨fun e r hread => ?_, fun t r hread => ?_, fun n t r hread hn => ?_,
    fun b n d t r hread => ?_, fun v n t r hread => ?_, fun x r hread hkind => ?_⟩⟩
  · exact StepEffect.step_eq hw (.decodeFails (.inr ⟨hp, hc, hl⟩) hread)
  · exact (StepEffect.step_eq hw (.emptyDirect hp hc hl hread)).trans
      (congrArg _ (failWith_accept (e := .emptyDirectBranch) nofun ..))
  · exact StepEffect.step_eq hw (.startsDirect hp hc hl hn hread)
  · exact StepEffect.step_eq hw (.startsIndirect hp hc hl hread)
  · exact StepEffect.step_eq hw (.startsCorr hp hc hl hread)
  · exact (StepEffect.step_eq hw (.ignores hp hc hl hread hkind)).trans (congrArg _ (ignore_accept ..))

/-- Settles O25: SYNC's part of `InitStep`, in the state that the shared bookkeeping leaves. -/
theorem syncSetsTheEntryPoint : Obligations.SyncSetsTheEntryPoint :=
  fun m a t s hp => (execSync_eq m a t s).trans (handlePacket_init hp)

/-- Settles O26: SYNC's part of `RunStep` is `Ignore`. -/
theorem syncIsIgnoredWhileRunning : Obligations.SyncIsIgnoredWhileRunning := by
  intro m a t s hp hc
  calc exec (.sync m a t) s
      = .next ((s.accept (Instr.sync m a t).packet).ignore .sync) :=
        (execSync_eq m a t s).trans (handlePacket_running hp hc)
    _ = _ := congrArg _ (ignore_accept ..)

/-- Settles O27: the parts of `RunStep` that load a walk, in the state that the shared bookkeeping leaves. -/
theorem countedPacketsLoadTheirWalk : Obligations.CountedPacketsLoadTheirWalk := by
  intro s hp hc
  refine ⟨fun n t hn => ?_, fun b n d t => ?_, fun v n t => ?_⟩
  · exact ((execDbr_eq n t s).trans (handlePacket_running hp hc)).trans (if_neg hn)
  · exact (execIbr_eq b n d t s).trans (handlePacket_running hp hc)
  · exact (execCorr_eq v n t s).trans (handlePacket_running hp hc)

/-- Rules R125 and R160, for the Tcode of any recognized-but-unhandled kind. -/
theorem runOther_running (tc : Tcode) {s : State} (hp : s.phase = .running) (hc : s.ctl = .idle) :
    runOther tc s = .next { s with
      pkt := otherPacket tc
      events := s.events ++ [.decoded (otherPacket tc), .ignored (.other tc)]
      packetsProcessed := s.packetsProcessed + 1 } := by
  rw [runOther_eq, handlePacket_running hp hc, ignore_accept]

/-- Settles O29: each of the seven meanings is the shared one at its Tcode. -/
theorem otherKindsAreIgnored : Obligations.OtherKindsAreIgnored := by
  intro i tc s hmem hp hc
  have shared : exec i s = runOther tc s := by
    simp only [List.mem_cons, Prod.mk.injEq, List.not_mem_nil, or_false] at hmem
    rcases hmem with ⟨rfl, rfl⟩ | ⟨rfl, rfl⟩ | ⟨rfl, rfl⟩ | ⟨rfl, rfl⟩ | ⟨rfl, rfl⟩ | ⟨rfl, rfl⟩ | ⟨rfl, rfl⟩ <;> rfl
  exact shared.trans (runOther_running tc hp hc)

/-! ### Visits -/

theorem parcels_of_legalLength {e : Entry} (h : LegalLength e) : parcels e.len = some (e.len / 2) :=
  parcels_eq_some_iff.2 ⟨h.1, h.2, rfl⟩

theorem legalLength_of_parcels {e : Entry} {n : Nat} (h : parcels e.len = some n) : LegalLength e := by
  obtain ⟨hne, heven, -⟩ := parcels_eq_some_iff.1 h
  exact ⟨hne, heven⟩

/-- Rule R154: a visit of an entry of legal length emits its record, whatever comes of it. -/
theorem visit_records {m : VisitMode} {s t : State} {e : Entry} (hlookup : s.index.lookup s.currentPc = some e)
    (hlegal : LegalLength e) (h : visit m s = .next t) : t.records = s.records ++ [⟨s.currentPc, e⟩] := by
  have hlen := parcels_of_legalLength hlegal
  rcases visit_cases m s with ⟨hx, -⟩ | ⟨_, hx, hn, -⟩ | ⟨_, _, hx, -, -, h'⟩ | ⟨_, _, hx, -, -, -, h'⟩ |
    ⟨_, _, _, hx, -, -, -, h'⟩ <;> rw [hlookup] at hx
  · cases hx
  · cases hx
    rw [hlen] at hn
    cases hn
  all_goals
    cases hx
    rw [h'] at h
    cases h
    rfl

/-- Settles O51: a visit of an entry of legal length emits its record, and the effects that write `records` are such
visits. -/
theorem recordsAreTheVisits : Obligations.RecordsAreTheVisits := by
  intro s t h
  refine ⟨fun e ⟨hw, hp, hc, hr⟩ hlookup hlegal => ?_, fun hnone => ?_⟩
  · rw [step_visit hw hp hc hr] at h
    exact visit_records hlookup hlegal h
  · obtain ⟨hw, effect⟩ := step_effect h
    cases effect with
    | visitUnderflows hp hc hr hx hn => exact absurd ⟨⟨hw, hp, hc, hr⟩, _, hx, legalLength_of_parcels hn⟩ hnone
    | visitBadOperand hp hc hr hx hn => exact absurd ⟨⟨hw, hp, hc, hr⟩, _, hx, legalLength_of_parcels hn⟩ hnone
    | visits hp hc hr hx hn => exact absurd ⟨⟨hw, hp, hc, hr⟩, _, hx, legalLength_of_parcels hn⟩ hnone
    | _ => rfl

/-- The state after a visit that completes (rule R154): the record, the walk registers and the next address. -/
def visitedTo (pc : Word) (e : Entry) (s : State) : State :=
  { visited e s with remaining := remainingAfter e s, currentPc := pc }

/-- Rule R154: a visit within the count whose next address is defined completes. -/
theorem step_visitedTo {s : State} {e : Entry} {pc : Word} (hv : Visiting s)
    (hlookup : s.index.lookup s.currentPc = some e) (hlegal : LegalLength e) (hle : e.len / 2 ≤ s.remaining.toNat)
    (htarget : visitTarget (modeOf s.ctl) s.cfg s.currentPc e = some pc) : step s = .next (visitedTo pc e s) := by
  obtain ⟨hw, hp, hc, hr⟩ := hv
  exact StepEffect.step_eq hw (.visits hp hc hr hlookup (parcels_of_legalLength hlegal) hle htarget)

/-- The next address of the model's visits by length is that of rule R155. -/
theorem visitTarget_byLength (c : Cfg) : visitTarget .byLength c = nextByLength := rfl

/-- The next address of the model's jump-aware visits is that of rule R161. -/
theorem visitTarget_jumpAware (c : Cfg) : visitTarget .jumpAware c = jumpAwareNext c := by
  funext a e
  simp only [visitTarget, nextPc, isJump, List.contains_iff_mem, jumpAwareNext]
  cases operandOffset e.ops <;> rfl

/-- Settles O35: both walks visit by length. -/
theorem visitByLengthAdvances : Obligations.VisitByLengthAdvances := by
  intro s e hv hc hlookup hlegal hle
  have mode : modeOf s.ctl = .byLength := by rcases hc with hc | hc <;> rw [hc] <;> rfl
  exact step_visitedTo hv hlookup hlegal hle (by rw [mode, visitTarget_byLength]; rfl)

/-- Settles O36: an indirect walk's visits are jump-aware, and the two cases are those of rule R161. -/
theorem visitOfIndirectWalkFollowsJumps : Obligations.VisitOfIndirectWalkFollowsJumps := by
  intro s e hv hc hlookup hlegal hle
  have target : visitTarget (modeOf s.ctl) s.cfg s.currentPc e = jumpAwareNext s.cfg s.currentPc e := by
    rw [hc, modeOf, visitTarget_jumpAware]
  refine ⟨fun hjump => ?_, fun off hjump hoff => ?_⟩
  · exact step_visitedTo hv hlookup hlegal hle (by rw [target, jumpAwareNext, if_neg hjump])
  · exact step_visitedTo hv hlookup hlegal hle (by rw [target, jumpAwareNext, if_pos hjump, hoff]; rfl)

/-! ### Resolutions -/

/-- Settles O38: the effect `directResolves`. -/
theorem directBranchResolves : Obligations.DirectBranchResolves :=
  fun _ _ _ hw hp hc hr he ho => StepEffect.step_eq hw (.directResolves hp hc hr he ho)

/-- Settles O39: the effect `indirectResolves`. -/
theorem indirectBranchResolves : Obligations.IndirectBranchResolves :=
  fun _ hw hp hc hr => StepEffect.step_eq hw (.indirectResolves hp hc hr)

/-- Settles O40: the effect `corrEnds`. -/
theorem correlationEndsTheTrace : Obligations.CorrelationEndsTheTrace :=
  fun _ hw hp hc hr => StepEffect.step_eq hw (.corrEnds hp hc hr)

end Sys2Proof.Machine

/-! Walks (rules R155 to R159, R167): the visits of a walk, one step each, and then its resolution. -/

namespace Sys2Proof.Machine

open Sys2Proof.Claims

/-! ### Runs -/

theorem run_succ {M : Host.Core} {s t : M.State} (h : M.step s = .next t) (k : Nat) :
    M.run (k + 1) s = M.run k t := by
  simp only [Host.Core.run, h]

theorem run_add {M : Host.Core} {j : Nat} {s t : M.State} (h : M.run j s = .next t) (k : Nat) :
    M.run (j + k) s = M.run k t := by
  induction j generalizing s with
  | zero =>
    cases h
    rw [Nat.zero_add]
  | succ j ih =>
    cases hstep : M.step s with
    | next u =>
      rw [run_succ hstep] at h
      rw [Nat.add_right_comm, run_succ hstep, ih h]
    | fault r => simp [Host.Core.run, hstep] at h
    | refused r => simp [Host.Core.run, hstep] at h

/-- A run and one step more. -/
theorem run_then_step {j : Nat} {s t u : State} (h : core.run j s = .next t) (hstep : step t = .next u) :
    core.run (j + 1) s = .next u :=
  (run_add (M := core) h 1).trans (run_succ (M := core) hstep 0)

/-! ### The visits of a walk -/

theorem legalLength_parcels_pos {e : Entry} (h : LegalLength e) : 0 < e.len / 2 :=
  parcels_pos (parcels_of_legalLength h)

/-- Rule R153: a sequence of records has a parcel sum when each length is legal. -/
theorem parcelSum_cons_eq_some_iff {r : Record} {rs : List Record} {k : Nat} :
    parcelSum (r :: rs) = some k ↔ LegalLength r.entry ∧ ∃ m, parcelSum rs = some m ∧ r.entry.len / 2 + m = k := by
  rw [parcelSum]
  by_cases hlegal : LegalLength r.entry
  · rw [parcels_of_legalLength hlegal]
    cases parcelSum rs <;> simp [hlegal]
  · have illegal : parcels r.entry.len = none :=
      Option.eq_none_iff_forall_ne_some.2 fun _ hn => hlegal (legalLength_of_parcels hn)
    simp [illegal, hlegal]

theorem remainingAfter_toNat {e : Entry} {s : State} (h : e.len / 2 ≤ s.remaining.toNat) :
    (remainingAfter e s).toNat = s.remaining.toNat - e.len / 2 := by
  have lt := s.remaining.isLt
  simp only [remainingAfter, BitVec.toNat_sub, BitVec.toNat_ofNat]
  omega

theorem walked_nil {s : State} (hr : s.remaining = 0) : walked [] s.currentPc s = s := by
  simp [walked, ← hr]

/-- A walk's visits are its first one and then those of the walk that is left. -/
theorem walked_cons {r : Record} {s : State} (ha : r.address = s.currentPc) (b : Word) (rs : List Record) (z : Word) :
    walked (r :: rs) z s = walked rs z (visitedTo b r.entry s) := by
  obtain ⟨a, e⟩ := r
  subst ha
  cases hlast : rs.getLast? <;> simp [walked, visitedTo, visited, List.getLast?_cons, hlast]

/-- The next address in the walk that a state is in (rules R155, R157). -/
def State.nextInWalk (s : State) : Word → Entry → Option Word := visitTarget (modeOf s.ctl) s.cfg

/-- From a state in a walk, as many steps as the walk has visits make them all, if the Index holds them and their
parcels are those left. -/
theorem run_visits {rs : List Record} {z : Word} {s : State} (hw : s.cfg.wf = true) (hp : s.phase = .running)
    (hc : s.ctl ≠ .idle) (hsum : parcelSum rs = some s.remaining.toNat)
    (hwalk : IsWalk s.nextInWalk s.index s.currentPc rs z) : core.run rs.length s = .next (walked rs z s) := by
  induction rs generalizing s with
  | nil =>
    have none_left : s.remaining = 0 := by
      rw [parcelSum, Option.some.injEq] at hsum
      exact BitVec.eq_of_toNat_eq hsum.symm
    obtain rfl : s.currentPc = z := hwalk
    rw [walked_nil none_left]
    rfl
  | cons r rs ih =>
    obtain ⟨hlegal, m, hrest, htotal⟩ := parcelSum_cons_eq_some_iff.1 hsum
    obtain ⟨haddress, hlookup, b, hnext, hwalk⟩ := hwalk
    have hle : r.entry.len / 2 ≤ s.remaining.toNat := by omega
    have some_left : s.remaining ≠ 0 := by
      intro hr
      rw [hr] at hle
      exact Nat.not_lt.2 hle (legalLength_parcels_pos hlegal)
    have first : step s = .next (visitedTo b r.entry s) :=
      step_visitedTo ⟨hw, hp, hc, some_left⟩ hlookup hlegal hle hnext
    have left : parcelSum rs = some (visitedTo b r.entry s).remaining.toNat := by
      rw [hrest, visitedTo, remainingAfter_toNat hle]
      congr 1
      omega
    calc core.run (rs.length + 1) s
        = core.run rs.length (visitedTo b r.entry s) := run_succ (M := core) first _
      _ = .next (walked rs z (visitedTo b r.entry s)) := ih hw hp hc left hwalk
      _ = .next (walked (r :: rs) z s) := by rw [walked_cons haddress]

/-- A visit fails, or moves on to the next address of its walk with fewer parcels left. -/
theorem step_visit_fails_or_moves {s : State} (hv : Visiting s) :
    (∃ t, step s = .next t ∧ t.phase = .failed) ∨
    ∃ e b, s.index.lookup s.currentPc = some e ∧ LegalLength e ∧ e.len / 2 ≤ s.remaining.toNat ∧
      s.nextInWalk s.currentPc e = some b ∧ step s = .next (visitedTo b e s) := by
  have ⟨hw, hp, hc, hr⟩ := hv
  rw [step_visit hw hp hc hr]
  rcases visit_cases (modeOf s.ctl) s with ⟨-, h⟩ | ⟨_, -, -, h⟩ | ⟨_, _, -, -, -, h⟩ | ⟨_, _, -, -, -, -, h⟩ |
    ⟨e, n, b, hlookup, hlen, hle, hnext, h⟩
  case inr.inr.inr.inr =>
    obtain ⟨hne, heven, rfl⟩ := parcels_eq_some_iff.1 hlen
    exact .inr ⟨e, b, hlookup, ⟨hne, heven⟩, hle, hnext, h⟩
  all_goals exact .inl ⟨_, h, rfl⟩

/-- From a state in a walk, within as many steps as there are parcels left, a visit fails, or the Index holds a walk whose
parcels sum to those left. -/
theorem walk_fails_or_is_held {s : State} (hw : s.cfg.wf = true) (hp : s.phase = .running) (hc : s.ctl ≠ .idle) :
    (∃ k t, k ≤ s.remaining.toNat ∧ core.run k s = .next t ∧ t.phase = .failed) ∨
    ∃ rs z, rs.length ≤ s.remaining.toNat ∧ parcelSum rs = some s.remaining.toNat ∧
      IsWalk s.nextInWalk s.index s.currentPc rs z := by
  induction hn : s.remaining.toNat using Nat.strongRecOn generalizing s with
  | ind n ih =>
    by_cases hr : s.remaining = 0
    · obtain rfl : 0 = n := by rw [← hn, hr]; rfl
      exact .inr ⟨[], s.currentPc, Nat.le_refl 0, rfl, rfl⟩
    have some_left : 0 < n := hn ▸ Nat.pos_of_ne_zero fun h => hr (BitVec.eq_of_toNat_eq h)
    rcases step_visit_fails_or_moves ⟨hw, hp, hc, hr⟩ with ⟨t, hstep, hfail⟩ |
      ⟨e, b, hlookup, hlegal, hle, hnext, hstep⟩
    · exact .inl ⟨1, t, some_left, run_succ (M := core) hstep 0, hfail⟩
    have left : (visitedTo b e s).remaining.toNat = n - e.len / 2 := by rw [visitedTo, remainingAfter_toNat hle, hn]
    have fewer : n - e.len / 2 < n := Nat.sub_lt some_left (legalLength_parcels_pos hlegal)
    rcases ih _ (s := visitedTo b e s) fewer hw hp hc left with ⟨k, t, hk, hrun, hfail⟩ | ⟨rs, z, hlength, hsum, hwalk⟩
    · exact .inl ⟨k + 1, t, by omega, (run_succ (M := core) hstep k).trans hrun, hfail⟩
    · refine .inr ⟨⟨s.currentPc, e⟩ :: rs, z, ?_, ?_, rfl, hlookup, b, hnext, hwalk⟩
      · rw [List.length_cons]
        omega
      · exact parcelSum_cons_eq_some_iff.2 ⟨hlegal, _, hsum, by dsimp only; omega⟩

/-! ### Whole walks -/

/-- After the visits of a walk none of its parcels are left, and the last visit is that of its last record. -/
theorem walked_last {rs : List Record} {r : Record} (hlast : rs.getLast? = some r) (z : Word) (s : State) :
    (walked rs z s).lastVisited = r.address ∧ (walked rs z s).lastEntry = some r.entry := by
  simp [walked, hlast]

/-- The resolution of a direct walk (rule R156), where its last instruction has an offset. -/
theorem walked_step_direct {rs : List Record} {r : Record} {z : Word} {off : Int} {s : State} (hw : s.cfg.wf = true)
    (hp : s.phase = .running) (hc : s.ctl = .walkDirect) (hlast : rs.getLast? = some r)
    (ho : operandOffset r.entry.ops = some off) :
    step (walked rs z s) = .next { walked rs (r.address + BitVec.ofInt 64 off) s with ctl := .idle } := by
  obtain ⟨hvisited, hentry⟩ := walked_last hlast z s
  rw [← hvisited]
  exact directBranchResolves (walked rs z s) r.entry off hw hp hc rfl hentry ho

/-- Settles O59: the visits of the walk are made, and the step after them is the walk's resolution. -/
theorem walksRunToTheirEnd : Obligations.WalksRunToTheirEnd := by
  intro s rs z hw hp hsum
  refine ⟨fun r off hc hwalk hlast ho => ?_, fun hc hwalk => ?_, fun hc hwalk => ?_⟩
  · have visits : core.run rs.length s = .next (walked rs z s) :=
      run_visits hw hp (by simp [hc]) hsum (by rwa [State.nextInWalk, hc])
    exact run_then_step visits (walked_step_direct hw hp hc hlast ho)
  · have visits : core.run rs.length s = .next (walked rs z s) :=
      run_visits hw hp (by simp [hc]) hsum (by rwa [State.nextInWalk, hc, modeOf, visitTarget_jumpAware])
    exact run_then_step visits (indirectBranchResolves (walked rs z s) hw hp hc rfl)
  · have visits : core.run rs.length s = .next (walked rs z s) :=
      run_visits hw hp (by simp [hc]) hsum (by rwa [State.nextInWalk, hc])
    exact run_then_step visits (correlationEndsTheTrace (walked rs z s) hw hp hc rfl)

/-- Settles O58: unless a visit fails, the Index holds a walk of the parcels left, which is visited whole; at its last
instruction the branch resolves, or fails for want of an offset. -/
theorem directWalkCoversItsCount : Obligations.DirectWalkCoversItsCount := by
  intro s hw hp hc hr
  have walking : s.ctl ≠ .idle := by simp [hc]
  rcases walk_fails_or_is_held hw hp walking with ⟨k, t, hk, hrun, hfail⟩ | ⟨rs, z, hlength, hsum, hwalk⟩
  · exact ⟨k, t, by omega, hrun, .inl hfail⟩
  have visits := run_visits hw hp walking hsum hwalk
  have hlength : rs.length + 1 ≤ s.remaining.toNat + 1 := by omega
  obtain rfl | ⟨rs, r, rfl⟩ := List.eq_nil_or_concat' rs
  · exact absurd (BitVec.eq_of_toNat_eq (Option.some.inj hsum).symm) hr
  have hlast : (rs ++ [r]).getLast? = some r := List.getLast?_concat
  cases ho : operandOffset r.entry.ops with
  | none =>
    have fails : StepEffect (walked (rs ++ [r]) z s) _ := .directFails hp hc rfl (walked_last hlast z s).2 ho
    exact ⟨_, _, hlength, run_then_step visits (fails.step_eq hw), .inl rfl⟩
  | some off =>
    rw [State.nextInWalk, hc] at hwalk
    exact ⟨_, _, hlength, run_then_step visits (walked_step_direct hw hp hc hlast ho),
      .inr ⟨rs, r, z, off, hwalk, hsum, ho, rfl⟩⟩

end Sys2Proof.Machine

/-! Errors in the replay (rules R200 to R211): the packets and the visits that raise one, the steps that stop the machine,
and the packet an error is attributed to. -/

namespace Sys2Proof.Machine

open Sys2Proof.Claims

/-- Settles O44: one line of the table of rule R200 for each clause. -/
theorem errorCodes : Obligations.ErrorCodes :=
  fun _ _ => ⟨fun _ => rfl, fun _ => rfl, fun _ => rfl, fun _ => rfl, fun _ _ => rfl, fun _ => rfl, fun _ _ _ => rfl, rfl,
    fun _ _ => rfl, fun _ => rfl⟩

/-! ### Packets -/

/-- Settles O28: DBR's part of `RunStep` for the count 0, in the state that the shared bookkeeping leaves. -/
theorem emptyDirectBranchIsRaised : Obligations.EmptyDirectBranchIsRaised := by
  intro t s hp hc
  calc exec (.dbr 0 t) s
      = .next ((s.accept (Instr.dbr 0 t).packet).failWith .emptyDirectBranch) :=
        ((execDbr_eq 0 t s).trans (handlePacket_running hp hc)).trans (if_pos rfl)
    _ = _ := congrArg _ (failWith_accept (e := .emptyDirectBranch) nofun ..)

/-- Rule R151: in `INIT` an instruction other than SYNC is accounted for and raises `ExpectedSync`. -/
theorem exec_init_of_not_sync {i : Instr} (hi : ∀ m a t, i ≠ .sync m a t) {s : State} (hp : s.phase = .init) :
    exec i s = .next ((s.accept i.packet).failWith (.expectedSync i.packet.kind)) := by
  obtain ⟨t, hrun⟩ := runItem_completes (.row i) (.inl hp)
  rcases runItem_next_cases hrun with ⟨-, ⟨m, a, ts, hsync, -⟩ | ⟨-, rfl⟩⟩ | ⟨hrunning, -⟩
  · exact absurd (Item.row.inj hsync) (hi m a ts)
  · exact hrun
  · rw [hp] at hrunning; cases hrunning

/-- Settles O30: the error is that of a packet just counted. -/
theorem firstPacketMustBeSync : Obligations.FirstPacketMustBeSync := by
  intro i s hi hp
  exact (exec_init_of_not_sync hi hp).trans (congrArg _ (failWith_accept (e := .expectedSync _) nofun ..))

/-! ### Visits and resolutions -/

/-- Settles O32: the effect `visitMisses`. -/
theorem missingInstructionIsRaised : Obligations.MissingInstructionIsRaised :=
  fun _ ⟨hw, hp, hc, hr⟩ hlookup => StepEffect.step_eq hw (.visitMisses hp hc hr hlookup)

theorem parcels_of_not_legalLength {e : Entry} (h : ¬ LegalLength e) : parcels e.len = none :=
  Option.eq_none_iff_forall_ne_some.2 fun _ hn => h (legalLength_of_parcels hn)

/-- Settles O33: the effect `visitBadLength`. -/
theorem badInstructionLengthIsRaised : Obligations.BadInstructionLengthIsRaised :=
  fun _ _ ⟨hw, hp, hc, hr⟩ hlookup hillegal =>
    StepEffect.step_eq hw (.visitBadLength hp hc hr hlookup (parcels_of_not_legalLength hillegal))

/-- Settles O34: the effect `visitUnderflows`, whose record is that of the visit. -/
theorem parcelUnderflowIsRaised : Obligations.ParcelUnderflowIsRaised :=
  fun _ _ ⟨hw, hp, hc, hr⟩ hlookup hlegal hlt =>
    StepEffect.step_eq hw (.visitUnderflows hp hc hr hlookup (parcels_of_legalLength hlegal) hlt)

/-- Settles O37: the effects `directFails` and `visitBadOperand`; in an indirect walk a jump without an offset has no next
address. -/
theorem unsupportedBranchOperandIsRaised : Obligations.UnsupportedBranchOperandIsRaised := by
  refine ⟨fun s e hw hp hc hr he ho => StepEffect.step_eq hw (.directFails hp hc hr he ho), ?_⟩
  intro s e ⟨hw, hp, hc, hr⟩ hindirect hlookup hlegal hle hjump ho
  have no_target : visitTarget (modeOf s.ctl) s.cfg s.currentPc e = none := by
    rw [hindirect, modeOf, visitTarget_jumpAware, jumpAwareNext, if_pos hjump, ho, Option.map_none]
  exact StepEffect.step_eq hw (.visitBadOperand hp hc hr hlookup (parcels_of_legalLength hlegal) hle no_target)

/-! ### The end of a run -/

/-- Rule R150: a step is taken in `INIT` and in `RUNNING` only. -/
theorem PhaseEffect.unfinished {s t : State} (h : PhaseEffect s t) : s.phase = .init ∨ s.phase = .running := by
  cases h with
  | enters hp => exact .inl hp
  | runs hp => exact .inr hp
  | ends hp => exact .inr hp
  | fails hp => exact hp

theorem StepEffect.not_terminal {s t : State} (h : StepEffect s t) : s.phase ≠ .terminal := by
  rcases h.phaseEffect.unfinished with hp | hp <;> simp [hp]

theorem StepEffect.not_failed {s t : State} (h : StepEffect s t) : s.phase ≠ .failed := by
  rcases h.phaseEffect.unfinished with hp | hp <;> simp [hp]

/-- Rule R20: no step leads back to `INIT`. -/
theorem PhaseEffect.leaves_init {s t : State} (h : PhaseEffect s t) : t.phase ≠ .init := by
  cases h with
  | enters _ ht => simp [ht]
  | runs _ ht => simp [ht]
  | ends _ ht => simp [ht]
  | fails _ ht => simp [ht]

/-- The two effects that end a run without an error (rules R152, R159). -/
theorem StepEffect.terminal_cases {s t : State} (h : StepEffect s t) (ht : t.phase = .terminal) :
    (t.endReason = .correlation ∧ s.ctl = .walkCorr ∧ s.remaining = 0) ∨
    (t.endReason = .endOfStream ∧ s.phase = .running ∧ s.ctl = .idle ∧ s.pos = s.trace.length) := by
  have unended := h.not_terminal
  cases h with
  | endsStream hp hc hl => exact .inr ⟨rfl, hp, hc, hl⟩
  | corrEnds hp hc hr => exact .inl ⟨rfl, hc, hr⟩
  | _ => exact absurd ht (by simp [unended])

/-- Settles O55: `TERMINAL` is reached by the two effects that end a run, and the invariant of the next state says that
`fail` is set in `FAILED` and only there. -/
theorem whatStopsTheMachine : Obligations.WhatStopsTheMachine := by
  intro s t hinv h
  have effect := (step_effect h).2
  have failIff := (invariantIsKept s t hinv h).failIff
  refine ⟨effect.phaseEffect.leaves_init, fun hfinal => ?_⟩
  rcases hfinal with ht | ht
  · have no_fail : t.fail = none := not_not.1 fun hf => by simp [failIff.2 hf] at ht
    rcases effect.terminal_cases ht with ⟨hend, hc, hr⟩ | ⟨hend, hp, hc, hl⟩
    · exact .inl ⟨hend, no_fail, hc, hr⟩
    · exact .inr (.inl ⟨hend, no_fail, hp, hc, hl⟩)
  · exact .inr (.inr ⟨ht, Option.ne_none_iff_exists'.1 (failIff.1 ht)⟩)

/-- Settles O56: the failing effects one by one. Those of a packet just decoded have reported it, and those of a walk
report nothing. -/
theorem errorsAreAttributed : Obligations.ErrorsAreAttributed := by
  intro s t h ht
  have effect := (step_effect h).2
  have not_yet := effect.not_failed
  cases effect with
  | decodeFails hr hd => exact ⟨_, _, rfl, .inl ⟨⟨_, rfl⟩, rfl, rfl, rfl, rfl⟩⟩
  | expectsSync hp hd hk => exact ⟨_, _, rfl, .inr ⟨nofun, rfl, .inr rfl⟩⟩
  | emptyDirect hp hc hl hd => exact ⟨_, _, rfl, .inr ⟨nofun, rfl, .inr rfl⟩⟩
  | visitMisses => exact ⟨_, _, rfl, .inr ⟨nofun, rfl, .inl rfl⟩⟩
  | visitBadLength => exact ⟨_, _, rfl, .inr ⟨nofun, rfl, .inl rfl⟩⟩
  | visitUnderflows => exact ⟨_, _, rfl, .inr ⟨nofun, rfl, .inl rfl⟩⟩
  | visitBadOperand => exact ⟨_, _, rfl, .inr ⟨nofun, rfl, .inl rfl⟩⟩
  | directFails => exact ⟨_, _, rfl, .inr ⟨nofun, rfl, .inl rfl⟩⟩
  | _ => exact absurd ht (by simp [not_yet])

end Sys2Proof.Machine

/-! Decodes that stop inside a packet (rules R201, R210, R212): at a field that overflows, and at the end of a stream that is
cut short. -/

namespace Sys2Proof

open Sys2Proof.Claims

/-! ### The fields of a handled kind -/

theorem Read.andThen_assoc {α β γ : Type} (x : Read α) (f : α → Reader → Read β) (g : β → Reader → Read γ) :
    (x.andThen f).andThen g = x.andThen fun a r => (f a r).andThen g := by
  cases x <;> rfl

/-- A field of full groups: its run is read and then packed (rules R101, R103). -/
def readField (c : Cfg) (tag : Tag) (r : Reader) : Read Word :=
  (readFieldUntil tag r).andThen fun run r => pack6 c run r

theorem readField_run (c : Cfg) {tag : Tag} {run : List Byte} (h : IsRun tag run) (p : Nat) (rest : List Byte) :
    readField c tag ⟨p, run ++ rest⟩ = packK c (payload run 0) 6 run ⟨p + run.length, rest⟩ := by
  rw [readField, readFieldUntil_run h, Read.ok_andThen, pack6, mdo_firstByte]

theorem readFieldUntil_unended {tag : Tag} {bs : List Byte} (h : Unended tag bs) (p : Nat) :
    readFieldUntil tag ⟨p, bs⟩ = .err (.unexpectedEof (p + bs.length)) ⟨p + bs.length, []⟩ :=
  readRunFrom_eof p (unended_iff.1 h)

theorem readField_unended (c : Cfg) {tag : Tag} {bs : List Byte} (h : Unended tag bs) (p : Nat) :
    readField c tag ⟨p, bs⟩ = .err (.unexpectedEof (p + bs.length)) ⟨p + bs.length, []⟩ := by
  rw [readField, readFieldUntil_unended h, Read.err_andThen]

/-- The fields of a handled kind after the Tcode byte `t` and run A, in the order of rule R212: run A's own, that of the
second run, and after these two what `next` reads: for IBR the timestamp, which the other kinds have in the second run
already. -/
structure FieldOrder (c : Cfg) (t : Byte) (a : List Byte) (v0 k : Nat) (next : Word → Word → Reader → Read Item) :
    Prop where
  first : ∀ p rest, decodePacket c ⟨p, t :: (a ++ rest)⟩ =
    (packK c v0 k a ⟨p + 1 + a.length, rest⟩).andThen fun x r => (readField c (secondTag c t) r).andThen (next x)
  third : t.toNat / 4 = c.tcIbr.toNat → ∃ item : Word → Word → Word → Item, ∀ x y r,
    next x y r = (readField c c.tagEom r).andThen fun z r => .ok (item x y z) r

/-- The Tcode byte of another kind is not one of IBR. -/
theorem tcode_ne_ibr {c : Cfg} {t : Byte} {tc : Tcode} (ht : t.toNat / 4 = tc.toNat) (hne : tc ≠ c.tcIbr) :
    t.toNat / 4 ≠ c.tcIbr.toNat := by
  rwa [ht, ne_eq, BitVec.toNat_inj]

/-- Each handled kind reads its fields in that order (rules R121 to R124). -/
theorem exists_fieldOrder {c : Cfg} (hw : c.wf = true) {t : Byte} {a : List Byte} {v0 k : Nat} (ha : IsRun c.tagEof a)
    (h : FirstField c t a v0 k) : ∃ next, FieldOrder c t a v0 k next := by
  obtain ⟨-, ibr_sync, ibr_dbr, -, -, corr_ibr, -⟩ := Cfg.wf_distinct hw
  rcases h with ⟨ht, hmarker, rfl, rfl⟩ | ⟨ht, rfl, rfl⟩ | ⟨ht | ht, rfl, rfl⟩
  · have marker : bits52 (firstByte a) = c.syncMarker := by rw [← BitVec.toNat_inj, bits52_firstByte, hmarker]
    have not_ibr := tcode_ne_ibr ht ibr_sync.symm
    refine ⟨fun x y r => .ok (.row (.sync c.syncMarker x y)) r, fun p rest => ?_, fun hibr => absurd hibr not_ibr⟩
    simp [decodePacket_sync ht, decodeSync, readFieldUntil_run ha, marker, bits76_firstByte, secondTag,
      not_ibr, readField, Read.andThen_assoc]
  · have not_ibr := tcode_ne_ibr ht ibr_dbr.symm
    refine ⟨fun x y r => .ok (.row (.dbr x y)) r, fun p rest => ?_, fun hibr => absurd hibr not_ibr⟩
    simp [decodePacket_dbr hw ht, decodeDbr, readFieldUntil_run ha, pack6, mdo_firstByte, secondTag, not_ibr,
      readField, Read.andThen_assoc]
  · refine ⟨fun x y r => (readField c c.tagEom r).andThen fun z r =>
        .ok (.row (.ibr (branchTypeOfCode (bits76 (firstByte a))) x y z)) r, fun p rest => ?_,
      fun _ => ⟨_, fun _ _ _ => rfl⟩⟩
    simp [decodePacket_ibr hw ht, decodeIbr, readFieldUntil_run ha, bits52_firstByte, secondTag, ht, readField,
      Read.andThen_assoc]
  · have not_ibr := tcode_ne_ibr ht corr_ibr
    refine ⟨fun x y r => .ok (.row (.corr (bits76 (firstByte a)) x y)) r, fun p rest => ?_,
      fun hibr => absurd hibr not_ibr⟩
    simp [decodePacket_corr hw ht, decodeCorr, readFieldUntil_run ha, bits52_firstByte, secondTag, not_ibr,
      readField, Read.andThen_assoc]

/-! ### Fields that overflow -/

/-- Rule R210: under `FAULT` a value that does not fit stops the decode where the reader stands, just past the run. -/
theorem packK_overflow {c : Cfg} (hfault : c.fieldOverflow = .fault) {v0 k : Nat} {run : List Byte}
    (h : 2 ^ 64 ≤ fieldValue v0 k run) (r : Reader) : packK c v0 k run r = .err (.fieldOverflow r.pos) r := by
  rw [packK_eq_ite, if_pos ⟨h, hfault⟩]

/-- Settles O12: the fields before the one that overflows are read, and packing that one ends the sequence. -/
theorem fieldOverflowStopsTheDecode : Obligations.FieldOverflowStopsTheDecode := by
  intro c p t a rest v0 k hw hfault ha hfirst
  obtain ⟨next, order⟩ := exists_fieldOrder hw ha hfirst
  refine ⟨fun hlargeA => ?_, fun hA b hb => ⟨fun hlargeB => ?_, fun hB hibr d hd hlargeD => ?_⟩⟩
  · rw [order.first, packK_overflow hfault hlargeA, Read.err_andThen]
  · rw [List.append_assoc, order.first, packK_of_fits (.inr hA), Read.ok_andThen, readField_run c hb,
      packK_overflow hfault hlargeB, Read.err_andThen]
  · obtain ⟨item, hthird⟩ := order.third hibr
    rw [List.append_assoc, List.append_assoc, order.first, packK_of_fits (.inr hA), Read.ok_andThen,
      readField_run c hb, packK_of_fits (.inr hB), Read.ok_andThen, hthird, readField_run c hd,
      packK_overflow hfault hlargeD, Read.err_andThen]

/-! ### Streams that are cut short -/

/-- A reading operation that, on a stream cut before the end of what it consumes, reads up to the cut and fails there. -/
def FailsWhenCut {α : Type} (f : Reader → Read α) : Prop :=
  ∀ p m bs a r, f ⟨p, bs⟩ = .ok a r → p + m < r.pos →
    f ⟨p, bs.take m⟩ = .err (.unexpectedEof (p + m)) ⟨p + m, []⟩

theorem FailsWhenCut.ok {α : Type} (a : α) : FailsWhenCut (Read.ok a) := by
  intro p m bs b r h hcut
  cases h
  exact absurd hcut (by simp)

theorem FailsWhenCut.err {α : Type} (e : Reader → DecodeError) : FailsWhenCut fun r => (.err (e r) r : Read α) :=
  fun _ _ _ _ _ h => nomatch h

theorem FailsWhenCut.ite {α : Type} {P : Prop} [Decidable P] {f g : Reader → Read α} (hf : FailsWhenCut f)
    (hg : FailsWhenCut g) : FailsWhenCut fun r => if P then f r else g r := by
  split
  · exact hf
  · exact hg

/-- A sequence of two reads fails at the cut in the first, or after the first has read the bytes it needs, in the
second. -/
theorem FailsWhenCut.andThen {α β : Type} {f : Reader → Read α} {g : α → Reader → Read β} (hlocal : ReadsLocally f)
    (hf : FailsWhenCut f) (hg : ∀ a, FailsWhenCut (g a)) : FailsWhenCut fun r => (f r).andThen g := by
  intro p m bs b r h hcut
  obtain ⟨a, q, hfa, hga⟩ := Read.andThen_eq_ok.1 h
  obtain ⟨used, rest, rfl, rfl, same⟩ := hlocal p bs a q hfa
  dsimp only
  by_cases hm : m < used.length
  · rw [hf p m _ a _ hfa (Nat.add_lt_add_left hm p), Read.err_andThen]
  · have whole : (used ++ rest).take m = used ++ rest.take (m - used.length) := by
      rw [List.take_append, List.take_of_length_le (by omega)]
    have cut : p + used.length + (m - used.length) = p + m := by omega
    rw [whole, same, Read.ok_andThen, hg a _ _ _ b r hga (by omega), cut]

theorem readByte_failsWhenCut : FailsWhenCut readByte := by
  intro p m bs a r h hcut
  cases bs with
  | nil => cases h
  | cons b bs =>
    cases h
    obtain rfl : m = 0 := by dsimp only at hcut; omega
    rfl

/-- Rule R101: before its terminator a run does not end. -/
theorem readFieldUntil_failsWhenCut (tag : Tag) : FailsWhenCut (readFieldUntil tag) := by
  intro p m bs run r h hcut
  rcases readFieldUntil_cases tag ⟨p, bs⟩ with ⟨xs, b, rest, rfl, hb, hxs, e⟩ | ⟨-, e⟩
  · cases e.symm.trans h
    have inside : m ≤ xs.length := by dsimp only at hcut; omega
    rw [List.take_append_of_le_length inside, readFieldUntil,
      readRunFrom_eof p fun x hx => hxs x (List.mem_of_mem_take hx), List.length_take_of_le inside]
  · cases e.symm.trans h

/-- Rule R102: the assembly of a field reads nothing. -/
theorem packK_failsWhenCut (c : Cfg) (v0 k : Nat) (run : List Byte) : FailsWhenCut (packK c v0 k run) := by
  refine .ite ?_ (.ok _)
  cases c.fieldOverflow with
  | fault => exact .err _
  | truncate => exact .ok _

/-- A run and what follows it. -/
theorem FailsWhenCut.run {α : Type} (tag : Tag) {g : List Byte → Reader → Read α} (hg : ∀ a, FailsWhenCut (g a)) :
    FailsWhenCut fun r => (readFieldUntil tag r).andThen g :=
  .andThen (readFieldUntil_local tag) (readFieldUntil_failsWhenCut tag) hg

/-- A field and what follows it. -/
theorem FailsWhenCut.field {α : Type} (c : Cfg) (v0 k : Nat) (run : List Byte) {g : Word → Reader → Read α}
    (hg : ∀ x, FailsWhenCut (g x)) : FailsWhenCut fun r => (packK c v0 k run r).andThen g :=
  .andThen (packK_local c v0 k run) (packK_failsWhenCut c v0 k run) hg

theorem decodeSync_failsWhenCut (c : Cfg) : FailsWhenCut (decodeSync c) :=
  .run _ fun _ => .ite (.err _) <| .field _ _ _ _ fun _ => .run _ fun _ => .field _ _ _ _ fun _ => .ok _

theorem decodeDbr_failsWhenCut (c : Cfg) : FailsWhenCut (decodeDbr c) :=
  .run _ fun _ => .field _ _ _ _ fun _ => .run _ fun _ => .field _ _ _ _ fun _ => .ok _

theorem decodeIbr_failsWhenCut (c : Cfg) : FailsWhenCut (decodeIbr c) :=
  .run _ fun _ => .field _ _ _ _ fun _ => .run _ fun _ => .field _ _ _ _ fun _ => .run _ fun _ =>
    .field _ _ _ _ fun _ => .ok _

theorem decodeCorr_failsWhenCut (c : Cfg) : FailsWhenCut (decodeCorr c) :=
  .run _ fun _ => .field _ _ _ _ fun _ => .run _ fun _ => .field _ _ _ _ fun _ => .ok _

theorem decodeOther_failsWhenCut (c : Cfg) (t : Byte) : FailsWhenCut (decodeOther c t) :=
  .ite (.run _ fun _ => .ok _) (.ok _)

theorem decodePacket_failsWhenCut (c : Cfg) : FailsWhenCut (decodePacket c) :=
  .andThen readByte_local readByte_failsWhenCut fun t =>
    .ite (decodeSync_failsWhenCut c) <| .ite (decodeDbr_failsWhenCut c) <| .ite (decodeIbr_failsWhenCut c) <|
    .ite (decodeCorr_failsWhenCut c) <| .ite (decodeOther_failsWhenCut c t) (.err _)

/-- Rule R201: with no terminator after it, the Tcode byte of a handled kind is followed by an unended run A. -/
theorem decodePacket_unendedFirst {c : Cfg} (hw : c.wf = true) {t : Byte}
    (ht : t.toNat / 4 = c.tcSync.toNat ∨ t.toNat / 4 = c.tcDbr.toNat ∨ t.toNat / 4 = c.tcIbr.toNat ∨
      t.toNat / 4 = c.tcCorr.toNat) {bs : List Byte} (h : Unended c.tagEof bs) (p : Nat) :
    decodePacket c ⟨p, t :: bs⟩ = .err (.unexpectedEof (p + 1 + bs.length)) ⟨p + 1 + bs.length, []⟩ := by
  have runA := readFieldUntil_unended h (p + 1)
  rcases ht with ht | ht | ht | ht
  · rw [decodePacket_sync ht, decodeSync, runA, Read.err_andThen]
  · rw [decodePacket_dbr hw ht, decodeDbr, runA, Read.err_andThen]
  · rw [decodePacket_ibr hw ht, decodeIbr, runA, Read.err_andThen]
  · rw [decodePacket_corr hw ht, decodeCorr, runA, Read.err_andThen]

/-- Settles O14: the decoder fails at a cut as its parts do; a run without its terminator is read to the end of the
stream, once the fields before it have been accepted. -/
theorem truncatedPacketFails : Obligations.TruncatedPacketFails := by
  refine ⟨decodePacket_failsWhenCut, fun _ _ => rfl, fun _ p _ _ hw ht h => decodePacket_unendedFirst hw ht h p,
    fun c p t a v0 k hw ha hfirst hA => ?_, fun c p t bs tc hw hmem ht hskip htag h => ?_⟩
  · obtain ⟨next, order⟩ := exists_fieldOrder hw ha hfirst
    refine ⟨fun bs h => ?_, fun b bs hibr hb hB h => ?_⟩
    · rw [order.first, packK_of_fits hA, Read.ok_andThen, readField_unended c h, Read.err_andThen]
    · obtain ⟨item, hthird⟩ := order.third hibr
      have hb : IsRun (secondTag c t) b := by rwa [secondTag, if_pos hibr]
      rw [List.append_assoc, order.first, packK_of_fits hA, Read.ok_andThen, readField_run c hb, packK_of_fits hB,
        Read.ok_andThen, hthird, readField_unended c h, Read.err_andThen]
  · have skips : mseo t ≠ c.tagEom := by rwa [ne_eq, ← BitVec.toNat_inj, mseo_toNat]
    rw [decodePacket_other hw hmem ht, decodeOther, if_pos ⟨hskip, skips⟩, readFieldUntil_unended h, Read.err_andThen]

end Sys2Proof

/-! The machine from its launch to its end (rules R230, R231, R237): what reset leaves in the registers, and the bound
on the steps of a run. -/

namespace Sys2Proof.Machine

/-! ### Reset -/

/-- Settles O41: `State.launch` writes each register as rule R230 lists it. -/
theorem resetValues : Obligations.ResetValues :=
  fun c x t => ⟨State.launch c x t, rfl, State.launch_phase c x t, State.launch_ctl c x t, State.launch_pos c x t,
    State.launch_pktStart c x t, State.launch_packetsProcessed c x t, State.launch_currentPc c x t,
    State.launch_lastAbsoluteAddress c x t, State.launch_pkt c x t, State.launch_remaining c x t,
    State.launch_lastVisited c x t, State.launch_lastEntry c x t, State.launch_endReason c x t, State.launch_fail c x t,
    State.launch_records c x t, State.launch_events c x t, rfl⟩

/-- Settles O46: at reset no packet has been read, no walk is in progress and nothing has been visited. -/
theorem invariantAtLaunch : Obligations.InvariantAtLaunch := by
  intro c x t hx
  have ⟨walkDirect, walkIndirect, walkCorr, remainingLe, directEntry⟩ : (State.launch c x t).Walking := .of_idle rfl
  exact {
    indexWf := hx
    posLe := Nat.zero_le _
    startLe := Nat.le_refl 0
    counted := rfl
    countLe := Nat.le_refl 0
    initLaunch := fun _ => rfl
    runningCount := by simp
    failIff := by simp
    failOffset := nofun
    endIff := by simp
    walkPhase := fun hc => absurd rfl hc
    walkDirect, walkIndirect, walkCorr, remainingLe, directEntry
    lastVisitedIn := nofun
    recordsIn := nofun
    lastEven := rfl
    pktShaped := by constructor <;> simp [Packet.empty] }

/-! ### The steps of a run, charged to its packets -/

/-- The steps that the packets decoded account for: one to read each, one for each parcel it counts, and one to resolve
its walk. -/
def packetSteps (es : List Event) : Nat := instructionCountSum es + 2 * decodedCount es

/-- The steps that the walk in progress can still take: a visit for each parcel left, and its resolution. -/
def State.walkSteps (s : State) : Nat := if s.ctl = .idle then 0 else s.remaining.toNat + 1

/-- The one step that is charged to no packet is the one that ends the run. -/
def State.lastStep (s : State) : Nat := if s.phase = .terminal ∨ s.phase = .failed then 1 else 0

theorem packetSteps_of_decoded {es fs : List Event} {p : Packet}
    (h : decodedPackets fs = decodedPackets es ++ [p]) :
    packetSteps fs = packetSteps es + (p.instructionCount.toNat + 2) := by
  simp only [packetSteps, instructionCountSum, decodedCount, h, List.map_append, List.sum_append, List.length_append,
    List.map_singleton, List.sum_singleton, List.length_singleton]
  omega

theorem packetSteps_le_accept (p : Packet) (s : State) : packetSteps s.events ≤ packetSteps (s.accept p).events := by
  rw [packetSteps_of_decoded (decodedPackets_accept p s)]
  exact Nat.le_add_right ..

/-- Each packet counts less than `2^64` parcels (rule R28), so the steps are bounded by the number of packets alone. -/
theorem packetSteps_le (es : List Event) : packetSteps es ≤ decodedCount es * (2 ^ 64 + 2) := by
  have sum_le : instructionCountSum es ≤ decodedCount es * 2 ^ 64 := by
    have each_le : ∀ n ∈ (decodedPackets es).map fun p => p.instructionCount.toNat, n ≤ 2 ^ 64 := by
      simp only [List.forall_mem_map]
      exact fun p _ => p.instructionCount.isLt.le
    simpa [instructionCountSum, decodedCount] using List.sum_le_card_nsmul _ _ each_le
  rw [packetSteps]
  omega

theorem State.walkSteps_walk {s : State} (hc : s.ctl ≠ .idle) : s.walkSteps = s.remaining.toNat + 1 := if_neg hc

/-- Rule R154: a visit within the count takes its parcels from the steps of the walk. -/
theorem State.walkSteps_takeParcels {s : State} {n : Nat} (hc : s.ctl ≠ .idle) (hle : n ≤ s.remaining.toNat) :
    (s.takeParcels n).walkSteps + n = s.walkSteps := by
  have lt := s.remaining.isLt
  rw [State.walkSteps_walk hc, State.walkSteps_walk (s := s.takeParcels n) hc, State.takeParcels_remaining,
    BitVec.toNat_sub, BitVec.toNat_ofNat]
  omega

theorem State.lastStep_of_final {s : State} (h : s.final) : s.lastStep = 1 := if_pos h

theorem State.lastStep_le_one (s : State) : s.lastStep ≤ 1 := by
  unfold State.lastStep
  split <;> decide

/-- What a step is charged to. -/
inductive StepCharge (s t : State) : Prop
  /-- The step ends the run. -/
  | ends (hfinal : t.final) (hwalk : t.walkSteps ≤ s.walkSteps)
      (hpackets : packetSteps s.events ≤ packetSteps t.events)
  /-- The step reads a packet, and may start its walk. -/
  | reads {p : Packet} (hwalk : t.walkSteps ≤ s.walkSteps + (p.instructionCount.toNat + 1))
      (hpackets : decodedPackets t.events = decodedPackets s.events ++ [p])
  /-- The step is one of the walk in progress. -/
  | walks (hwalk : t.walkSteps < s.walkSteps) (hevents : t.events = s.events)

theorem StepEffect.charge {s t : State} (h : StepEffect s t) : StepCharge s t := by
  cases h with
  | decodeFails => exact .ends (.inr rfl) le_rfl le_rfl
  | enters => exact .reads (Nat.le_add_right ..) (decodedPackets_accept ..)
  | expectsSync => exact .ends (.inr rfl) le_rfl (packetSteps_le_accept ..)
  | emptyDirect => exact .ends (.inr rfl) le_rfl (packetSteps_le_accept ..)
  | startsDirect => exact .reads (Nat.le_add_left ..) (decodedPackets_accept ..)
  | startsIndirect => exact .reads (Nat.le_add_left ..) (decodedPackets_accept ..)
  | startsCorr => exact .reads (Nat.le_add_left ..) (decodedPackets_accept ..)
  | ignores =>
    exact .reads (Nat.le_add_right ..) ((decodedPackets_ignore ..).trans (decodedPackets_accept ..))
  | endsStream => exact .ends (.inl rfl) le_rfl le_rfl
  | visitMisses => exact .ends (.inr rfl) le_rfl le_rfl
  | visitBadLength => exact .ends (.inr rfl) le_rfl le_rfl
  | visitUnderflows => exact .ends (.inr rfl) le_rfl le_rfl
  | visitBadOperand hp hc hr hx hn hle ht =>
    exact .ends (.inr rfl) ((Nat.le_add_right ..).trans (State.walkSteps_takeParcels hc hle).le) le_rfl
  | visits hp hc hr hx hn hle ht =>
    exact .walks ((Nat.lt_add_of_pos_right (parcels_pos hn)).trans_eq (State.walkSteps_takeParcels hc hle)) rfl
  | directFails => exact .ends (.inr rfl) le_rfl le_rfl
  | directResolves hp hc => exact .walks (by simp [State.walkSteps, hc]) rfl
  | indirectResolves hp hc => exact .walks (by simp [State.walkSteps, hc]) rfl
  | corrEnds => exact .ends (.inl rfl) (Nat.zero_le _) le_rfl

/-- A step is paid for: by the walk it shortens, by the packet it reads, or as the last of the run. -/
theorem StepCharge.le {s t : State} (h : StepCharge s t) :
    t.walkSteps + packetSteps s.events + 1 ≤ s.walkSteps + packetSteps t.events + t.lastStep := by
  cases h with
  | ends hfinal hwalk hpackets =>
    rw [State.lastStep_of_final hfinal]
    omega
  | reads hwalk hpackets =>
    rw [packetSteps_of_decoded hpackets]
    omega
  | walks hwalk hevents =>
    rw [hevents]
    omega

/-! ### Runs from launch -/

/-- What the launch establishes and every step keeps holds after every run, the number of steps counted. -/
theorem run_induction {C : Nat → State → Prop} {s : State} (hlaunch : C 0 s)
    (hstep : ∀ k t u, C k t → step t = .next u → C (k + 1) u) {k : Nat} {t : State} (h : core.run k s = .next t) :
    C k t := by
  induction k generalizing s C with
  | zero =>
    cases h
    exact hlaunch
  | succ k ih =>
    cases hs : step s with
    | next u =>
      rw [run_succ (M := core) hs] at h
      exact ih (C := fun j => C (j + 1)) (hstep 0 s u hlaunch hs) (fun j => hstep (j + 1)) h
    | fault r => simp [Host.Core.run, core, hs] at h
    | refused r => simp [Host.Core.run, core, hs] at h

/-- What holds `k` steps after the launch: the invariant, the inputs as placed, and every step charged. -/
structure State.AfterLaunch (c : Cfg) (trace : List Byte) (k : Nat) (s : State) : Prop where
  inv     : s.Inv
  cfg     : s.cfg = c
  trace   : s.trace = trace
  charged : k + s.walkSteps ≤ packetSteps s.events + s.lastStep

theorem run_afterLaunch {c : Cfg} {x : Index} {trace : List Byte} (hx : Index.wf x = true) {k : Nat} {s : State}
    (h : core.run k (State.launch c x trace) = .next s) : s.AfterLaunch c trace k := by
  refine run_induction (C := State.AfterLaunch c trace) ⟨invariantAtLaunch c x trace hx, rfl, rfl, Nat.le_refl 0⟩ ?_ h
  rintro k t u ⟨hinv, rfl, rfl, hcharged⟩ hstep
  have effect := (step_effect hstep).2
  obtain ⟨htrace, -, hcfg⟩ := effect.inputs
  have unended : t.lastStep = 0 := if_neg (not_or.2 ⟨effect.not_terminal, effect.not_failed⟩)
  have charge := effect.charge.le
  exact ⟨invariantIsKept t u hinv hstep, hcfg, htrace, by omega⟩

theorem State.AfterLaunch.decodedCount_le {c : Cfg} {trace : List Byte} {k : Nat} {s : State}
    (h : s.AfterLaunch c trace k) : decodedCount s.events ≤ trace.length :=
  h.trace ▸ h.inv.countLe.trans h.inv.posLe

/-- The bound of rule R237 on a run that need not have ended. -/
theorem State.AfterLaunch.steps_le {c : Cfg} {trace : List Byte} {k : Nat} {s : State} (h : s.AfterLaunch c trace k) :
    k ≤ trace.length + 1 + instructionCountSum s.events + decodedCount s.events := by
  have charged := h.charged
  have packets := h.decodedCount_le
  have last := s.lastStep_le_one
  rw [packetSteps] at charged
  omega

/-- A bound on the steps of a run that depends on the length of its trace alone. -/
theorem State.AfterLaunch.steps_le_of_length {c : Cfg} {trace : List Byte} {k : Nat} {s : State}
    (h : s.AfterLaunch c trace k) : k ≤ trace.length * (2 ^ 64 + 2) + 1 := by
  calc k ≤ packetSteps s.events + s.lastStep := (Nat.le_add_right ..).trans h.charged
    _ ≤ decodedCount s.events * (2 ^ 64 + 2) + 1 := Nat.add_le_add (packetSteps_le _) s.lastStep_le_one
    _ ≤ trace.length * (2 ^ 64 + 2) + 1 := Nat.add_le_add_right (Nat.mul_le_mul_right _ h.decodedCount_le) 1

theorem State.unfinished_of_not_final {s : State} (h : ¬ s.final) : s.phase = .init ∨ s.phase = .running := by
  cases hp : s.phase with
  | init => exact .inl rfl
  | running => exact .inr rfl
  | terminal => exact absurd (.inl hp) h
  | failed => exact absurd (.inr hp) h

/-- Rule R150: until a run is over, it goes on. -/
theorem run_ends_or_goes_on {c : Cfg} {x : Index} (hw : c.wf = true) (hx : Index.wf x = true) (trace : List Byte)
    (n : Nat) : (∃ k s, core.run k (State.launch c x trace) = .next s ∧ s.final) ∨
      ∃ s, core.run n (State.launch c x trace) = .next s := by
  induction n with
  | zero => exact .inr ⟨_, rfl⟩
  | succ n ih =>
    obtain hends | ⟨s, hrun⟩ := ih
    · exact .inl hends
    by_cases hfinal : s.final
    · exact .inl ⟨n, s, hrun, hfinal⟩
    have reached := run_afterLaunch hx hrun
    obtain ⟨t, hstep⟩ :=
      unfinishedRunsTakeAStep s reached.inv (reached.cfg.symm ▸ hw) (State.unfinished_of_not_final hfinal)
    exact .inr ⟨t, run_then_step hrun hstep⟩

/-- Settles O57: every step but the last is charged to a packet, and a trace of `L` bytes holds at most `L` packets,
each of less than `2^64` parcels; so a run that did not end would pass a bound. -/
theorem everyRunEnds : Obligations.EveryRunEnds := by
  intro c x trace hw hx
  obtain ⟨k, s, hrun, hfinal⟩ | ⟨s, hrun⟩ :=
    run_ends_or_goes_on hw hx trace (trace.length * (2 ^ 64 + 2) + 1 + 1)
  · have reached := run_afterLaunch hx hrun
    exact ⟨k, s, hrun, hfinal, reached.decodedCount_le, reached.steps_le⟩
  · exact absurd (run_afterLaunch hx hrun).steps_le_of_length (Nat.not_succ_le_self _)

end Sys2Proof.Machine
